-- ==== Sys2Proof/Word.lean ====
section
/-! DEFINITION. The sizes of data the block handles (00_scope.md R9) and the three access widths. -/

namespace Sys2Proof

/-- A byte, 8 bits (R9). -/
abbrev Byte := BitVec 8

/-- A time in the unit of `time_us`, 56 bits unsigned (R23). -/
abbrev Time := BitVec 56

/-- An access width: byte, word or long (R9). -/
inductive Width where
  | byte
  | word
  | long
deriving DecidableEq, Repr

/-- How many bytes an access of this width covers (the `n` of R47 and R48). -/
def Width.bytes : Width → Nat
  | .byte => 1
  | .word => 2
  | .long => 4

/-- How many bits a value of this width has, `8n` (R9, R87). -/
abbrev Width.bits : Width → Nat
  | .byte => 8
  | .word => 16
  | .long => 32

end Sys2Proof
end

