-- ==== Sys2Proof/Config.lean ====
section
/-! DEFINITION. What an implementation fixes: the parameters of 00_scope.md R7 as one record of plain
data, the reference instantiation REF, and the free values the spec leaves to the environment (R41, R56,
R118). Machine/Configuration.lean holds the constraints of R8. -/

namespace Sys2Proof

/-- A total function given as data: the listed rows, and one answer for every other argument.
Every function on a finite type can be written so. -/
structure Table (α β : Type) where
  rows : List (α × β)
  dflt : β
deriving DecidableEq, Repr

/-- The widths a device window supports (R37). -/
structure WidthSet where
  byte : Bool
  word : Bool
  long : Bool
deriving DecidableEq, Repr

/-- A device window of a peripheral the document does not describe (R37). -/
structure ExtraWindow where
  base : Nat
  size : Nat
  widths : WidthSet
deriving DecidableEq, Repr

/-- What a write to the ROM region does (R7, R36). -/
inductive RomWritePolicy where
  | drop
  | fatal
deriving DecidableEq, Repr

/-- The block's answer to an acknowledge (R92): the token `AUTOVEC`, or a vector number where an
instantiation of `AUTOVECTOR` gives one. -/
inductive AckResponse where
  | autovec
  | vector (n : Nat)
deriving DecidableEq, Repr

/-- The parameters of R7, under the spec's names. `cyclesPerUs` is used by no rule. The last field
is the environment's: the sub-registers the I/O chip does not implement (R41, R129 `W3`). -/
structure Config where
  addrBits : Nat
  ramSize : Nat
  ramWindow : Nat
  romBase : Nat
  romWindow : Nat
  romSize : Nat
  ovlSize : Nat
  iochipBase : Nat
  iochipWindow : Nat
  subregLo : Nat
  subregBits : Nat
  discHookAddr : Nat
  extraWindows : List ExtraWindow
  romWritePolicy : RomWritePolicy
  autovector : Table (BitVec 3) AckResponse
  kbdCmdModel : Byte
  kbdCmdInquiry : Byte
  kbdRspModel : Byte
  kbdRspNull : Byte
  kbdDirDown : Bool
  kbdOtherResponse : Table Byte (Option Byte)
  kbdDwell : Nat
  cyclesPerUs : Option Nat
  mouseXAddr : Nat
  mouseYAddr : Nat
  mouseNewAddr : Nat
  mouseFlagNext : Table Byte Byte
  nDrives : Nat
  iochipHoles : List Nat
deriving DecidableEq, Repr

/-- The reference instantiation REF of R7. Its addresses and keyboard bytes are marked in the spec
as general knowledge. DESIGN CHOICE: `State.reset` carries it (entry 1). -/
def Config.ref : Config where
  addrBits := 24
  ramSize := 0x20000
  ramWindow := 0x400000
  romBase := 0x400000
  romWindow := 0x100000
  romSize := 0x20000
  ovlSize := 0x400000
  iochipBase := 0xE80000
  iochipWindow := 0x080000
  subregLo := 9
  subregBits := 4
  discHookAddr := 0xC00069
  extraWindows := []
  romWritePolicy := .drop
  autovector := ⟨[], .autovec⟩
  kbdCmdModel := 0x16
  kbdCmdInquiry := 0x10
  kbdRspModel := 0x0B
  kbdRspNull := 0x7B
  kbdDirDown := true
  kbdOtherResponse := ⟨[], none⟩
  kbdDwell := 5000
  cyclesPerUs := none
  mouseXAddr := 0x082A
  mouseYAddr := 0x0828
  mouseNewAddr := 0x08CE
  mouseFlagNext := ⟨[(0x00, 0x01)], 0x00⟩
  nDrives := 2
  iochipHoles := []

/-! Free values: constants without a body, so no proof can see what they are. Each is applied to the
count of draws in `State`, so every draw is fresh (entries 4 and 6). -/

/-- The byte the I/O chip answers to a `dev_read` (R41, U9). -/
opaque Config.freeDevAnswer : Nat → BitVec 8

/-- The status the disc handler answers (R67, R118, U10). -/
opaque Config.freeDiscStatus : Nat → BitVec 32

/-- The bytes of RAM after the disc handler has run, as a list of writes (R56, U10). -/
opaque Config.freeRam : Nat → List Host.Cell

/-- The bytes of a drive buffer after the disc handler has run: by draw and slot (R116). -/
opaque Config.freeDriveBuffer : Nat → Nat → List Host.Cell

/-- The writable flag of a drive after the disc handler has run: by draw and slot (R115, R118). -/
opaque Config.freeDriveWritable : Nat → Nat → Bool

end Sys2Proof
end

