-- ==== Sys2Proof/Syntax.lean ====
section
/-! DEFINITION. The operations of the block: one constructor per row of spec/opcode_table.json
(30_encoding.md R58 for the 17 operations, R61 for the five address rows). -/

namespace Sys2Proof

/-- An operation. An address operand is any number: a configuration wider than 24 bits passes
operations as structured values (R57), and the block masks every address itself (R32). -/
inductive Instr where
  /-- `RD.B A` (R76) -/
  | rdB (addr : Nat)
  /-- `RD.W A` (R77) -/
  | rdW (addr : Nat)
  /-- `RD.L A` (R78) -/
  | rdL (addr : Nat)
  /-- `IF.W A` (R79) -/
  | ifW (addr : Nat)
  /-- `WR.B A, v` (R80) -/
  | wrB (addr : Nat) (v : BitVec 8)
  /-- `WR.W A, v` (R81) -/
  | wrW (addr : Nat) (v : BitVec 16)
  /-- `WR.L A, v` (R82) -/
  | wrL (addr : Nat) (v : BitVec 32)
  /-- `IACK l` (R92) -/
  | iack (level : BitVec 3)
  /-- `RESET` (R145) -/
  | reset
  /-- `IRQ.RAISE s` (R90) -/
  | irqRaise (source : BitVec 3)
  /-- `IRQ.LOWER s` (R91) -/
  | irqLower (source : BitVec 3)
  /-- `KBD.CMD c` (R99) -/
  | kbdCmd (c : BitVec 8)
  /-- `KBD.KEY sc, pressed` (R100) -/
  | kbdKey (sc : BitVec 7) (pressed : Bool)
  /-- `TICK t` (R103) -/
  | tick (t : BitVec 56)
  /-- `MOUSE.MOVE dx, dy, button` (R110), the deltas as two's-complement patterns (R60) -/
  | mouseMove (dx : BitVec 16) (dy : BitVec 16) (button : Bool)
  /-- `BTN.SAMPLE` (R111) -/
  | btnSample
  /-- `OVL.DRIVE v` (R120) -/
  | ovlDrive (v : Bool)
  /-- address row `REGION.RAM`: the 22 address bits below the region select (R35, R61) -/
  | regionRam (low : BitVec 22)
  /-- address row `REGION.ROM`: the 20 address bits below the region select (R36, R61) -/
  | regionRom (low : BitVec 20)
  /-- address row `REGION.IOCHIP`: the 19 address bits below the region select (R41, R61) -/
  | regionIochip (low : BitVec 19)
  /-- address row `REGION.HOOK`: one address (R42, R61) -/
  | regionHook
  /-- address row `REGION.OVERLAY_ALIAS`, of the fetch decoder (R39, R61) -/
  | regionOverlayAlias (low : BitVec 22)
deriving DecidableEq, Repr

end Sys2Proof
end

