-- ==== Sys2Proof/WellFormed.lean ====
section
/-! DEFINITION. Which operations have a word form: the word holds a 24-bit address only (R57); every
other operand's width is in its type. -/

namespace Sys2Proof

/-- An address the 24-bit field `A` can hold (R57). -/
def fitsField (addr : Nat) : Bool := decide (addr < 2 ^ 24)

/-- Whether the operation can be written as an encoding (R57, R59). -/
def Instr.wellFormed : Instr → Bool
  | .rdB a => fitsField a
  | .rdW a => fitsField a
  | .rdL a => fitsField a
  | .ifW a => fitsField a
  | .wrB a _ => fitsField a
  | .wrW a _ => fitsField a
  | .wrL a _ => fitsField a
  | .iack _ => true
  | .reset => true
  | .irqRaise _ => true
  | .irqLower _ => true
  | .kbdCmd _ => true
  | .kbdKey _ _ => true
  | .tick _ => true
  | .mouseMove _ _ _ => true
  | .btnSample => true
  | .ovlDrive _ => true
  | .regionRam _ => true
  | .regionRom _ => true
  | .regionIochip _ => true
  | .regionHook => true
  | .regionOverlayAlias _ => true

end Sys2Proof
end

