-- ==== Sys2Proof/Decode.lean ====
section
/-! DEFINITION. Decoding and encoding: the 64-bit operation word `OPW64` (30_encoding.md R57 to R60, R70)
and the 24-bit address rows `ADDR24` (R61), each from the match and mask of spec/opcode_table.json. -/

namespace Sys2Proof

/-- The two decoders of the one address space (R33). -/
inductive AddrDecoder where
  | data
  | fetch
deriving DecidableEq, Repr

/-- What can be put before the decoder: an operation word, or a 24-bit address given to one of the
two address decoders. -/
inductive Encoding where
  | opw (w : BitVec 64)
  | addr (d : AddrDecoder) (a : BitVec 24)
deriving DecidableEq, Repr

/-- Why an encoding is refused. -/
inductive DecodeError where
  /-- the `OP` field is not listed (R70) -/
  | reservedOp (op : BitVec 8)
  /-- a bit of `A` or `D` that the row does not name is set (R59) -/
  | unusedBitSet (op : BitVec 8)
  /-- the address lies in no row of format `ADDR24` (R61) -/
  | noAddressRow (a : BitVec 24)
deriving DecidableEq, Repr

/-- One row of spec/opcode_table.json of format `OPW64`. -/
structure OpwRow where
  mnemonic : String
  matchBits : BitVec 64
  maskBits : BitVec 64
deriving DecidableEq, Repr

/-- The 17 operation rows of spec/opcode_table.json, in its order. -/
def opwRows : List OpwRow := [
  ⟨"RD.B", 0x0000000000000000, 0xFF000000FFFFFFFF⟩,
  ⟨"RD.W", 0x0100000000000000, 0xFF000000FFFFFFFF⟩,
  ⟨"RD.L", 0x0200000000000000, 0xFF000000FFFFFFFF⟩,
  ⟨"IF.W", 0x0300000000000000, 0xFF000000FFFFFFFF⟩,
  ⟨"WR.B", 0x0400000000000000, 0xFF000000FFFFFF00⟩,
  ⟨"WR.W", 0x0500000000000000, 0xFF000000FFFF0000⟩,
  ⟨"WR.L", 0x0600000000000000, 0xFF00000000000000⟩,
  ⟨"IACK", 0x0800000000000000, 0xFFFFFFFFFFFFFFF8⟩,
  ⟨"RESET", 0x0900000000000000, 0xFFFFFFFFFFFFFFFF⟩,
  ⟨"IRQ.RAISE", 0x1000000000000000, 0xFFFFFFFFFFFFFFF8⟩,
  ⟨"IRQ.LOWER", 0x1100000000000000, 0xFFFFFFFFFFFFFFF8⟩,
  ⟨"KBD.CMD", 0x2000000000000000, 0xFFFFFFFFFFFFFF00⟩,
  ⟨"KBD.KEY", 0x2100000000000000, 0xFFFFFFFFFFFFFE80⟩,
  ⟨"TICK", 0x2200000000000000, 0xFF00000000000000⟩,
  ⟨"MOUSE.MOVE", 0x3000000000000000, 0xFFFFFFFE00000000⟩,
  ⟨"BTN.SAMPLE", 0x3100000000000000, 0xFFFFFFFFFFFFFFFF⟩,
  ⟨"OVL.DRIVE", 0x3800000000000000, 0xFFFFFFFFFFFFFFFE⟩]

/-- Field `OP` of an operation word, bits 63 to 56 (R57). -/
def opField (w : BitVec 64) : BitVec 8 := w.extractLsb' 56 8

/-- Field `A` of an operation word, bits 55 to 32 (R57). -/
def aField (w : BitVec 64) : BitVec 24 := w.extractLsb' 32 24

/-- Field `D` of an operation word, bits 31 to 0 (R57). -/
def dField (w : BitVec 64) : BitVec 32 := w.extractLsb' 0 32

/-- An operation if the unused bits are zero, a refusal by name if not (R59). -/
def ifUnusedZero (w : BitVec 64) (unusedZero : Bool) (i : Instr) : Except DecodeError Instr :=
  if unusedZero then .ok i else .error (.unusedBitSet (opField w))

/-- The decoder of operation words: total, `OP` selects the row (R58), its operands are assembled as
R60 says, every other bit of `A` and `D` must be zero (R59). -/
def decodeOpw (w : BitVec 64) : Except DecodeError Instr :=
  let A := aField w
  let D := dField w
  match (opField w).toNat with
  | 0x00 => ifUnusedZero w (D == 0) (.rdB A.toNat)
  | 0x01 => ifUnusedZero w (D == 0) (.rdW A.toNat)
  | 0x02 => ifUnusedZero w (D == 0) (.rdL A.toNat)
  | 0x03 => ifUnusedZero w (D == 0) (.ifW A.toNat)
  | 0x04 => ifUnusedZero w (D.extractLsb' 8 24 == 0) (.wrB A.toNat (D.extractLsb' 0 8))
  | 0x05 => ifUnusedZero w (D.extractLsb' 16 16 == 0) (.wrW A.toNat (D.extractLsb' 0 16))
  | 0x06 => .ok (.wrL A.toNat D)
  | 0x08 => ifUnusedZero w (A == 0 && D.extractLsb' 3 29 == 0) (.iack (D.extractLsb' 0 3))
  | 0x09 => ifUnusedZero w (A == 0 && D == 0) .reset
  | 0x10 => ifUnusedZero w (A == 0 && D.extractLsb' 3 29 == 0) (.irqRaise (D.extractLsb' 0 3))
  | 0x11 => ifUnusedZero w (A == 0 && D.extractLsb' 3 29 == 0) (.irqLower (D.extractLsb' 0 3))
  | 0x20 => ifUnusedZero w (A == 0 && D.extractLsb' 8 24 == 0) (.kbdCmd (D.extractLsb' 0 8))
  | 0x21 => ifUnusedZero w (A == 0 && D.extractLsb' 9 23 == 0 && D.extractLsb' 7 1 == 0)
      (.kbdKey (D.extractLsb' 0 7) (D.getLsbD 8))
  | 0x22 => .ok (.tick (A ++ D))
  | 0x30 => ifUnusedZero w (A.extractLsb' 1 23 == 0)
      (.mouseMove (D.extractLsb' 0 16) (D.extractLsb' 16 16) (A.getLsbD 0))
  | 0x31 => ifUnusedZero w (A == 0 && D == 0) .btnSample
  | 0x38 => ifUnusedZero w (A == 0 && D.extractLsb' 1 31 == 0) (.ovlDrive (D.getLsbD 0))
  | _ => .error (.reservedOp (opField w))

/-- The address rows seen by the data decoder (R61), in the order of the table; the row
`REGION.OVERLAY_ALIAS` belongs to the fetch decoder only. -/
def decodeDataAddr (a : BitVec 24) : Except DecodeError Instr :=
  if a.extractLsb' 22 2 = 0x0#2 then .ok (.regionRam (a.extractLsb' 0 22))
  else if a.extractLsb' 20 4 = 0x4#4 then .ok (.regionRom (a.extractLsb' 0 20))
  else if a.extractLsb' 19 5 = 0x1D#5 then .ok (.regionIochip (a.extractLsb' 0 19))
  else if a = 0xC00069#24 then .ok .regionHook
  else .error (.noAddressRow a)

/-- The address rows seen by the fetch decoder: the alias row where it matches, else the data
decoder's (R33, R39, R61). -/
def decodeFetchAddr (a : BitVec 24) : Except DecodeError Instr :=
  if a.extractLsb' 22 2 = 0x0#2 then .ok (.regionOverlayAlias (a.extractLsb' 0 22))
  else decodeDataAddr a

/-- The decoder, total on every encoding, refusing by name. -/
def decode : Encoding → Except DecodeError Instr
  | .opw w => decodeOpw w
  | .addr .data a => decodeDataAddr a
  | .addr .fetch a => decodeFetchAddr a

/-- An operation word from its three fields (R57). -/
def opWord (op : BitVec 8) (A : BitVec 24) (D : BitVec 32) : Encoding := .opw (op ++ A ++ D)

/-- The encoder: the word of a well-formed operation, from the rows of R58 and R61. An address that
does not fit the field is cut to it; such an operation is not well-formed. -/
def encode : Instr → Encoding
  | .rdB a => opWord 0x00#8 (.ofNat 24 a) 0#32
  | .rdW a => opWord 0x01#8 (.ofNat 24 a) 0#32
  | .rdL a => opWord 0x02#8 (.ofNat 24 a) 0#32
  | .ifW a => opWord 0x03#8 (.ofNat 24 a) 0#32
  | .wrB a v => opWord 0x04#8 (.ofNat 24 a) (0#24 ++ v)
  | .wrW a v => opWord 0x05#8 (.ofNat 24 a) (0#16 ++ v)
  | .wrL a v => opWord 0x06#8 (.ofNat 24 a) v
  | .iack l => opWord 0x08#8 0#24 (0#29 ++ l)
  | .reset => opWord 0x09#8 0#24 0#32
  | .irqRaise s => opWord 0x10#8 0#24 (0#29 ++ s)
  | .irqLower s => opWord 0x11#8 0#24 (0#29 ++ s)
  | .kbdCmd c => opWord 0x20#8 0#24 (0#24 ++ c)
  | .kbdKey sc p => opWord 0x21#8 0#24 (0#23 ++ BitVec.ofBool p ++ 0#1 ++ sc)
  | .tick t => opWord 0x22#8 (t.extractLsb' 32 24) (t.extractLsb' 0 32)
  | .mouseMove dx dy b => opWord 0x30#8 (0#23 ++ BitVec.ofBool b) (dy ++ dx)
  | .btnSample => opWord 0x31#8 0#24 0#32
  | .ovlDrive v => opWord 0x38#8 0#24 (0#31 ++ BitVec.ofBool v)
  | .regionRam low => .addr .data (0x0#2 ++ low)
  | .regionRom low => .addr .data (0x4#4 ++ low)
  | .regionIochip low => .addr .data (0x1D#5 ++ low)
  | .regionHook => .addr .data 0xC00069#24
  | .regionOverlayAlias low => .addr .fetch (0x0#2 ++ low)

/-- The encoding that a number of bits from spec/opcode_table.json stands for: a row of 24 bits or
fewer is an address row, read by the data decoder (entry 15); a longer one is an operation word. -/
def tableEncoding (nbits w : Nat) : Encoding :=
  if nbits ≤ 24 then .addr .data (BitVec.ofNat 24 w) else .opw (BitVec.ofNat 64 w)

/-- What the decoder reads from a row's bits, numbered as the table numbers them. -/
def decodeTableWord (nbits w : Nat) : Option Instr :=
  match decode (tableEncoding nbits w) with
  | .ok i => some i
  | .error _ => none

end Sys2Proof
end

