-- ==== Sys2Proof/Machine/State.lean ====
section
/-! DEFINITION. The block's state record (10_state.md R15), the environment (R7, R28, R74) and the
ports (R5, R11) as records apart from it; the events; the reasons a step can stop; the state after
power-on (70_reset.md R143). -/

namespace Sys2Proof.Machine

/-- A byte array as plain data: offset and byte, offsets strictly rising, no byte 0 listed. -/
abbrev Mem := List Host.Cell

/-- The kind of a bus access (R125). -/
inductive AccessKind where
  | read
  | write
  | fetch
deriving DecidableEq, Repr

/-- A region of the data decoder (R38). -/
inductive Region where
  | ram
  | rom
  | iochip
  | hook
  | extra (k : Nat)
  | unmapped
deriving DecidableEq, Repr

/-- A region of the fetch decoder (R39): the overlay alias, or what the data decoder finds. -/
inductive FetchRegion where
  | romAlias
  | plain (r : Region)
deriving DecidableEq, Repr

/-- The fatal conditions with their recorded information (R69, R125, R126). -/
inductive FatalInfo where
  /-- `F1` `BUS_NO_SEMANTICS`: the masked address, the width, the kind -/
  | busNoSemantics (a : Nat) (w : Width) (k : AccessKind)
  /-- `F2` `DISC_HOOK_FAILED`: the command byte, the status -/
  | discHookFailed (v : Byte) (status : BitVec 32)
deriving DecidableEq, Repr

/-- The non-fatal conditions with their information (R69, R129). -/
inductive Warning where
  /-- `W1` `UNMAPPED_READ` -/
  | unmappedRead (a : Nat) (w : Width)
  /-- `W2` `UNMAPPED_WRITE`, with the value dropped as an unsigned number -/
  | unmappedWrite (a : Nat) (w : Width) (v : Nat)
  /-- `W3` `UNMAPPED_SUBREG` -/
  | unmappedSubreg (a : Nat) (k : AccessKind)
  /-- `W4` `KBD_EVENT_OVERWRITE` -/
  | kbdEventOverwrite (lost : Byte)
  /-- `W5` `KBD_CMD_OVERWRITE` -/
  | kbdCmdOverwrite (old new : Byte)
  /-- `W6` `ROM_WRITE_DROPPED` -/
  | romWriteDropped (a : Nat) (w : Width) (v : Nat)
  /-- `W7` `KBD_UNKNOWN_CMD` -/
  | kbdUnknownCmd (c : Byte)
deriving DecidableEq, Repr

/-- The output events (R11). The two calls carry the answer they got. -/
inductive Event where
  /-- `irq_out(l)` to the CPU core -/
  | irqOut (l : BitVec 3)
  /-- `sr_rx(b)` to the I/O chip's shift register -/
  | srRx (b : Byte)
  /-- `dev_read(IOCHIP, s) -> b` -/
  | devRead (s : Nat) (b : Byte)
  /-- `dev_write(IOCHIP, s, b)` -/
  | devWrite (s : Nat) (b : Byte)
  /-- `disc_cmd(b) -> status` -/
  | discCmd (b : Byte) (status : BitVec 32)
  /-- `log(W<k>, info)` -/
  | log (w : Warning)
  /-- `fatal(F<k>, info)` -/
  | fatal (f : FatalInfo)
deriving DecidableEq, Repr

/-- What the address decoder answers for an address row (R61): the region, and the array offset or
sub-register the row's bits select, where the region has one. -/
structure AddrAnswer where
  region : FetchRegion
  index : Option Nat
deriving DecidableEq, Repr

/-- The value an operation hands back to its issuer (R11, R87). -/
inductive RetVal where
  | byte (v : BitVec 8)
  | word (v : BitVec 16)
  | long (v : BitVec 32)
  /-- the acknowledge response of `IACK` -/
  | ack (r : AckResponse)
  /-- the level of `BTN.SAMPLE` -/
  | level (b : Bool)
  /-- the answer to an address row; not a value of an operation (entry 14) -/
  | addr (a : AddrAnswer)
deriving DecidableEq, Repr

/-- A drive slot's descriptor (R28, R68). -/
structure Drive where
  buffer : Mem
  size : Nat
  writable : Bool
deriving DecidableEq, Repr

/-- What the parties outside put before the block, one entry a step (R5, R57, R74; entry 2). -/
inductive Issue where
  /-- an encoded operation or address row -/
  | word (e : Encoding)
  /-- an operation passed as a structured value (R57) -/
  | value (i : Instr)
  /-- `ENV.DEV byte`: fixes the answer to the next `dev_read` (R74) -/
  | envDev (b : Byte)
  /-- `ENV.DISC status`: fixes the status of the next hook write (R74) -/
  | envDisc (status : BitVec 32)
deriving DecidableEq, Repr

/-- A stop the spec calls stuck (93_implementation_defined.md U6). -/
inductive Fault where
  /-- raised by every operation while `halted = 1` (R130); safe: the block takes no step either -/
  | halted
deriving DecidableEq, Repr

/-- A refusal by the model, each one the spec's own. -/
inductive Refusal where
  /-- an instruction without a meaning; raised by no arm of `exec`; safe -/
  | notModelled (mnemonic : String)
  /-- raised by `TICK t` with `t < time_us` (R103, U15); safe: the host broke its duty -/
  | timeRunsBack (now t : Time)
  /-- raised by `step` on a word that encodes no operation (R59, R70, U16); safe -/
  | undefinedEncoding (e : DecodeError)
  /-- raised by `step` on a word under a configuration wider than 24 bits, which has no word form (R57); safe -/
  | noWordForm
  /-- raised by `step` and `powerOn` on a configuration that breaks R8 (U17); safe -/
  | badConfig
  /-- raised by `powerOn` on buffers or drives that do not fit the configuration (R143, R144); safe -/
  | badBuffers
deriving DecidableEq, Repr

/-- The block's state: exactly the thirteen fields of R15, under its names, and no others. -/
structure Block where
  /-- fetch decoder's overlay mode (R16) -/
  overlay : Bool
  /-- bit `i`: source level `i` is requesting (R17) -/
  irqPending : BitVec 8
  /-- cached highest pending level (R18) -/
  irqLevel : BitVec 3
  /-- a keyboard command is latched (R19) -/
  kbdCmdValid : Bool
  /-- the latched command byte (R19) -/
  kbdCmd : BitVec 8
  /-- `time_us` when the command arrived (R19) -/
  kbdCmdTime : BitVec 56
  /-- an undelivered key event is held (R20) -/
  kbdEvtValid : Bool
  /-- the held key event byte (R20) -/
  kbdEvt : BitVec 8
  /-- button level, true is pressed (R22) -/
  mouseButton : Bool
  /-- simulated time as last told by `TICK` (R23) -/
  timeUs : BitVec 56
  /-- a fatal condition has happened (R24) -/
  halted : Bool
  /-- physical RAM by offset (R25) -/
  ram : Mem
  /-- firmware image by offset (R26) -/
  rom : Mem
deriving DecidableEq, Repr

/-- What stands beside the block and is no state of it (R28, R29): the configuration, the disc
descriptor set, and what the environment answers next. -/
structure Environment where
  /-- the configuration (R7), constant over a run (R155) -/
  cfg : Config
  /-- the disc descriptor set, one slot per drive (R28) -/
  drives : List (Option Drive)
  /-- what `ENV.DEV` fixed, if anything (R74) -/
  envDev : Option Byte
  /-- what `ENV.DISC` fixed, if anything (R74) -/
  envDisc : Option (BitVec 32)
  /-- how many free values have been drawn -/
  draws : Nat
deriving DecidableEq, Repr

/-- What passes through the three ports (R5, R11): the operations put before the block, and the result of
the last one. -/
structure Ports where
  /-- issued and not yet run, oldest first -/
  issued : List Issue
  /-- output events of the last operation, in order (R11) -/
  out : List Event
  /-- value returned by the last operation (R11) -/
  ret : Option RetVal
deriving DecidableEq, Repr

/-- The whole that a step takes and answers: the block's state record (R15), its environment and its
ports, three records apart (entry 2). -/
structure State extends block : Block, environment : Environment, ports : Ports where
deriving DecidableEq, Repr

/-- What a step has before it: nothing issued, an environment entry taken in, an operation to run, or
a refusal. -/
inductive Fetched where
  | idle (s : State)
  | environment (s : State)
  | run (i : Instr) (s : State)
  | refused (r : Refusal)
deriving DecidableEq, Repr

/-- The start state of R143 from a configuration, a RAM buffer, a ROM buffer and the descriptor set.
The three payload registers the spec leaves unspecified are 0: DESIGN CHOICE (entry 8). -/
def State.init (cfg : Config) (ram rom : Mem) (drives : List (Option Drive)) : State where
  overlay := true
  irqPending := 0
  irqLevel := 0
  kbdCmdValid := false
  kbdCmd := 0
  kbdCmdTime := 0
  kbdEvtValid := false
  kbdEvt := 0
  mouseButton := false
  timeUs := 0
  halted := false
  ram := ram
  rom := rom
  cfg := cfg
  drives := drives
  issued := []
  envDev := none
  envDisc := none
  out := []
  ret := none
  draws := 0

/-- The machine right after power-on, with the spec's reference configuration (entry 1), both buffers
all zero (DESIGN CHOICE, entry 7) and every drive slot absent (DESIGN CHOICE, entry 9). -/
def State.reset : State := State.init Config.ref [] [] (List.replicate Config.ref.nDrives none)

end Sys2Proof.Machine
end

