-- ==== Sys2Proof/Machine/Flags.lean ====
section
/-! DEFINITION. The status computations of the block: the cached interrupt level and the dwell test. The
block has no condition codes (40_bus_dispatch.md R160). -/

namespace Sys2Proof.Machine

/-- The scan of R91 from bit `i` down to bit 1: the first set bit, or 0. -/
def scanDown (p : BitVec 8) : Nat → BitVec 3
  | 0 => 0
  | i + 1 => if p.getLsbD (i + 1) then BitVec.ofNat 3 (i + 1) else scanDown p i

/-- The highest pending level, 0 if none (R18, R91). -/
def highestPending (p : BitVec 8) : BitVec 3 := scanDown p 7

/-- The mask with one source's bit set (R90). -/
def setPending (p : BitVec 8) (s : BitVec 3) : BitVec 8 := p ||| (1#8 <<< s.toNat)

/-- The mask with one source's bit cleared (R91). -/
def clearPending (p : BitVec 8) (s : BitVec 3) : BitVec 8 := p &&& ~~~(1#8 <<< s.toNat)

/-- The dwell test `time_us - kbd_cmd_time >= KBD_DWELL` on unbounded integers (R101). -/
def dwellElapsed (dwell : Nat) (now since : Time) : Bool :=
  decide ((dwell : Int) ≤ (now.toNat : Int) - (since.toNat : Int))

end Sys2Proof.Machine
end

