-- ==== Sys2Proof/Machine/Configuration.lean ====
section
/-! DEFINITION. What is computed from the configuration alone: a configuration table's value, a window's
widths, and the constraints of 00_scope.md R8. -/

namespace Sys2Proof

/-- The value of a table at an argument: its first row for it, else the default. -/
def Table.apply {α β : Type} [DecidableEq α] (t : Table α β) (a : α) : β :=
  match t.rows.find? (fun r => decide (r.1 = a)) with
  | some r => r.2
  | none => t.dflt

/-- Whether a width is in the set. -/
def WidthSet.has (s : WidthSet) : Width → Bool
  | .byte => s.byte
  | .word => s.word
  | .long => s.long

/-- Whether a size is a power of two (R8). -/
def isPowerOfTwo (n : Nat) : Bool := n == 2 ^ n.log2

/-- An address range, its base and its size. -/
abbrev Range := Nat × Nat

/-- Two ranges share no address: one is empty, or one ends before the other begins. -/
def Range.disjoint (r q : Range) : Bool :=
  decide (r.2 = 0) || decide (q.2 = 0) || decide (r.1 + r.2 ≤ q.1) || decide (q.1 + q.2 ≤ r.1)

/-- Every pair of ranges in the list is disjoint. -/
def pairwiseDisjoint : List Range → Bool
  | [] => true
  | r :: rs => rs.all (Range.disjoint r) && pairwiseDisjoint rs

/-- The ranges R8 asks to be pairwise disjoint and inside the address space. -/
def Config.ranges (c : Config) : List Range :=
  [(0, c.ramWindow), (c.romBase, c.romWindow), (c.iochipBase, c.iochipWindow), (c.discHookAddr, 1)] ++
    c.extraWindows.map fun x => (x.base, x.size)

/-- The RAM offsets of the five mouse bytes: two cells of two bytes and the flag (R27), each byte
offset reduced as R44 does. -/
def Config.mouseBytes (c : Config) : List Nat :=
  [c.mouseXAddr, c.mouseXAddr + 1, c.mouseYAddr, c.mouseYAddr + 1, c.mouseNewAddr].map (· % c.ramSize)

/-- The constraints of R8, with the multiple-of constraint of R7's `ROM_BASE` row. A configuration
that breaks one is refused (U17). -/
def Config.valid (c : Config) : Bool :=
  [decide (24 ≤ c.addrBits),
   isPowerOfTwo c.ramSize, isPowerOfTwo c.ramWindow, isPowerOfTwo c.romSize, isPowerOfTwo c.romWindow,
   decide (4 ≤ c.ramSize), decide (c.ramSize ≤ c.ramWindow), decide (4 ≤ c.romSize), decide (c.romSize ≤ c.romWindow),
   decide (c.romBase % c.romWindow = 0), decide (c.ovlSize ≤ c.ramWindow),
   pairwiseDisjoint c.ranges, c.ranges.all (fun r => decide (r.1 + r.2 ≤ 2 ^ c.addrBits)),
   decide (c.mouseXAddr < c.ramSize), decide (c.mouseYAddr < c.ramSize), decide (c.mouseNewAddr < c.ramSize),
   decide c.mouseBytes.Nodup, decide (c.kbdCmdModel ≠ c.kbdCmdInquiry)].all id

end Sys2Proof
end

