-- ==== Sys2Proof/Machine/Operands.lean ====
section
/-! DEFINITION. Operand forms and address computation: the address mask, the two region functions, array
offsets, sub-register select, byte lanes, signed deltas and the key event byte (40_bus_dispatch.md
R159, R160). -/

namespace Sys2Proof.Machine

/-- The masked bus address `A & (2^ADDR_BITS - 1)` (R32), written as a remainder (entry 13). -/
def busAddr (c : Config) (A : Nat) : Nat := A % 2 ^ c.addrBits

/-- Whether an address lies in a window. -/
def inWindow (base size a : Nat) : Bool := decide (base ≤ a) && decide (a < base + size)

/-- The index of the first window of `EXTRA_WINDOWS` that holds the address, counting from `k`. -/
def findExtra (a : Nat) : List ExtraWindow → Nat → Option Nat
  | [], _ => none
  | x :: xs, k => if inWindow x.base x.size a then some k else findExtra a xs (k + 1)

/-- The region function of the data decoder (R38). -/
def region (c : Config) (a : Nat) : Region :=
  if a < c.ramWindow then .ram
  else if inWindow c.romBase c.romWindow a then .rom
  else if inWindow c.iochipBase c.iochipWindow a then .iochip
  else if a = c.discHookAddr then .hook
  else match findExtra a c.extraWindows 0 with
    | some k => .extra k
    | none => .unmapped

/-- The region function of the fetch decoder (R39). -/
def fetchRegion (c : Config) (overlay : Bool) (a : Nat) : FetchRegion :=
  if overlay && decide (a < c.ovlSize) then .romAlias else .plain (region c a)

/-- Whether window `k` of `EXTRA_WINDOWS` supports a width (R37). -/
def extraHas (c : Config) (k : Nat) (w : Width) : Bool :=
  match c.extraWindows[k]? with
  | some x => x.widths.has w
  | none => false

/-- The RAM array offset of a RAM region address, `a & (RAM_SIZE - 1)` (R35, entry 13). -/
def ramOffset (c : Config) (a : Nat) : Nat := a % c.ramSize

/-- The ROM array offset of a ROM region address, `(a - ROM_BASE) & (ROM_SIZE - 1)` (R36, entry 13). -/
def romOffset (c : Config) (a : Nat) : Nat := (a - c.romBase) % c.romSize

/-- The ROM array offset of an overlay alias address, `a & (ROM_SIZE - 1)` (R39, entry 13). -/
def aliasOffset (c : Config) (a : Nat) : Nat := a % c.romSize

/-- The I/O chip sub-register an address selects (R41). -/
def subreg (c : Config) (a : Nat) : Nat := (a >>> c.subregLo) % 2 ^ c.subregBits

/-- Byte `k` of an `n`-byte value, byte 0 the most significant: `v[8(n-k)-1 : 8(n-1-k)]` (R62). -/
def lane (w : Width) (v : BitVec w.bits) (k : Nat) : Byte := v.extractLsb' (8 * (w.bytes - 1 - k)) 8

/-- The bytes of a value, most significant first (R43, R62). -/
def lanes (w : Width) (v : BitVec w.bits) : List Byte := (List.range w.bytes).map (lane w v)

/-- A value from its bytes, byte 0 the most significant (R43, R44). -/
def assemble (w : Width) (f : Nat → Byte) : BitVec w.bits :=
  match w with
  | .byte => f 0
  | .word => f 0 ++ f 1
  | .long => f 0 ++ f 1 ++ f 2 ++ f 3

/-- A horizontal mouse cell plus a delta: exact on integers, then modulo 2^16 (R112). -/
def cellPlus (cell delta : BitVec 16) : BitVec 16 := BitVec.ofInt 16 (cell.toNat + delta.toInt)

/-- A vertical mouse cell minus a delta: exact on integers, then modulo 2^16 (R112). -/
def cellMinus (cell delta : BitVec 16) : BitVec 16 := BitVec.ofInt 16 (cell.toNat - delta.toInt)

/-- The key event byte (R66): the direction bit above the scancode. -/
def keyEvent (c : Config) (sc : BitVec 7) (pressed : Bool) : Byte :=
  BitVec.ofBool (if pressed then c.kbdDirDown else !c.kbdDirDown) ++ sc

/-- A returned value of an access width (R87). -/
def retOf (w : Width) (v : BitVec w.bits) : RetVal :=
  match w with
  | .byte => .byte v
  | .word => .word v
  | .long => .long v

end Sys2Proof.Machine
end

