-- ==== Sys2Proof/Machine/Ops.lean ====
section
/-! DEFINITION. The named operations over memory and registers: byte arrays in canonical form, RAM and ROM
access (20_memory.md R44, R45), output events (00_scope.md R10), the fatal entry (60_exceptions.md
R124), the calls to the I/O chip (R41) and to the disc collaborator (R116), `MemRead`, `MemWrite` and
`Fetch` (R47 to R49), the keyboard dispatch (R102), the next issued operation, and power-on (R143).
There is no return from a fatal condition (R130, R135). -/

namespace Sys2Proof.Machine

/-- What an offset that is not listed reads as (entry 7). -/
def Mem.unlisted : Byte := 0

/-- The byte of an array at an offset. -/
def Mem.read : Mem → Nat → Byte
  | [], _ => Mem.unlisted
  | c :: m, i => if i = c.1 then c.2 else Mem.read m i

/-- A cell put before a list, left out where it says what an unlisted offset reads as. -/
def Mem.put (i : Nat) (b : Byte) (m : Mem) : Mem := if b = Mem.unlisted then m else (i, b) :: m

/-- One byte written, keeping the canonical form. -/
def Mem.write : Mem → Nat → Byte → Mem
  | [], i, b => Mem.put i b []
  | c :: m, i, b =>
    if i < c.1 then Mem.put i b (c :: m)
    else if i = c.1 then Mem.put i b m
    else c :: Mem.write m i b

/-- The canonical form from a lower bound: offsets rise from `lo`, stay below `size`, no cell lists
the byte an unlisted offset reads as. -/
def Mem.wfFrom (size : Nat) : Nat → Mem → Bool
  | _, [] => true
  | lo, c :: m => decide (lo ≤ c.1) && decide (c.1 < size) && decide (c.2 ≠ Mem.unlisted) && Mem.wfFrom size (c.1 + 1) m

/-- The canonical form of an array of `size` bytes. -/
def Mem.wf (size : Nat) (m : Mem) : Bool := Mem.wfFrom size 0 m

/-- An array of `size` bytes from a list of writes, those outside it left out. -/
def Mem.ofCells (size : Nat) (cells : List Host.Cell) : Mem :=
  cells.foldl (fun m c => if c.1 < size then Mem.write m c.1 c.2 else m) []

/-- Bytes written from an offset on, every offset reduced modulo the array's size (R44). -/
def writeSeq (size : Nat) (m : Mem) (i : Nat) : List Byte → Mem
  | [] => m
  | b :: bs => writeSeq size (Mem.write m (i % size) b) (i + 1) bs

/-- `RamRd` and `RomRd` (R44, R45): big-endian, every byte offset reduced modulo the array's size. -/
def arrayRead (size : Nat) (m : Mem) (i : Nat) (w : Width) : BitVec w.bits :=
  assemble w fun k => Mem.read m ((i + k) % size)

/-- `RamWr` (R44): big-endian, every byte offset reduced modulo the array's size. -/
def arrayWrite (size : Nat) (m : Mem) (i : Nat) (w : Width) (v : BitVec w.bits) : Mem :=
  writeSeq size m i (lanes w v)

/-- `RamRd(i, n)` (R44). -/
def ramRead (s : State) (i : Nat) (w : Width) : BitVec w.bits := arrayRead s.cfg.ramSize s.ram i w

/-- `RomRd(i, n)` (R45). -/
def romRead (s : State) (i : Nat) (w : Width) : BitVec w.bits := arrayRead s.cfg.romSize s.rom i w

/-- `RamWr(i, n, v)` (R44). -/
def ramWrite (s : State) (i : Nat) (w : Width) (v : BitVec w.bits) : State :=
  { s with ram := arrayWrite s.cfg.ramSize s.ram i w v }

/-- `emit e` (R10, R11). -/
def emit (s : State) (e : Event) : State := { s with out := s.out ++ [e] }

/-- `log(W<k>, info)` (R128). -/
def logWarning (s : State) (w : Warning) : State := emit s (.log w)

/-- `return v` (R10). -/
def returns (s : State) (v : RetVal) : State := { s with ret := some v }

/-- The start of an operation: its output list is empty and nothing is returned yet (R11). -/
def beginOp (s : State) : State := { s with out := [], ret := none }

/-- The halted test every operation makes first (R75, R130), then the operation's effect. -/
def running (s : State) (effect : State → Host.Outcome State Fault Refusal) :
    Host.Outcome State Fault Refusal :=
  if s.halted then .fault .halted else effect (beginOp s)

/-- `raise Fatal(F<k>, info)` (R124): the one fatal entry. Nothing is rolled back, nothing returned. -/
def raiseFatal (s : State) (f : FatalInfo) : State := emit { s with halted := true } (.fatal f)

/-- `dev_read(IOCHIP, s)`: the byte `ENV.DEV` fixed, else a free value (R41, R74, entry 4). -/
def devRead (s : State) (r : Nat) : State × Byte :=
  let b := s.envDev.getD (Config.freeDevAnswer s.draws)
  (emit { s with envDev := none, draws := s.draws + 1 } (.devRead r b), b)

/-- A byte read of the I/O chip window at masked address `a` (R41, R47). A sub-register the chip does not
implement answers 0 and logs `W3` (entry 10). -/
def iochipRead (s : State) (a : Nat) : State × Byte :=
  let r := subreg s.cfg a
  if r ∈ s.cfg.iochipHoles then (logWarning (emit s (.devRead r 0)) (.unmappedSubreg a .read), 0)
  else devRead s r

/-- A byte write of the I/O chip window at masked address `a` (R41, R48); a hole logs `W3` (entry 10). -/
def iochipWrite (s : State) (a : Nat) (v : Byte) : State :=
  let r := subreg s.cfg a
  let t := emit s (.devWrite r v)
  if r ∈ s.cfg.iochipHoles then logWarning t (.unmappedSubreg a .write) else t

/-- A drive slot after the disc handler has run: any bytes, any writable flag; an absent slot stays
absent and a buffer keeps its size (R28, R116, R155, entry 6). -/
def havocDrive (draw slot : Nat) : Option Drive → Option Drive
  | none => none
  | some d => some { d with
      buffer := Mem.ofCells d.size (Config.freeDriveBuffer draw slot)
      writable := Config.freeDriveWritable draw slot }

/-- Every slot after the disc handler has run, from slot number `k` on. -/
def havocDrives (draw : Nat) : Nat → List (Option Drive) → List (Option Drive)
  | _, [] => []
  | k, d :: ds => havocDrive draw k d :: havocDrives draw (k + 1) ds

/-- The disc collaborator's run (R116, R118): the status `ENV.DISC` fixed, else a free value; RAM and the
drives become any bytes (R56, entry 6). -/
def discCmd (s : State) (v : Byte) : State × BitVec 32 :=
  let status := s.envDisc.getD (Config.freeDiscStatus s.draws)
  (emit { s with
      ram := Mem.ofCells s.cfg.ramSize (Config.freeRam s.draws)
      drives := havocDrives s.draws 0 s.drives
      envDisc := none
      draws := s.draws + 1 } (.discCmd v status), status)

/-- `DiscHook(v)` (R116): forward the byte, then the status test. -/
def discHook (s : State) (v : Byte) : State :=
  let r := discCmd s v
  if r.2 = 0 then r.1 else raiseFatal r.1 (.discHookFailed v r.2)

/-- What a read ends in: a value, or nothing where it raised `F1` (R87). -/
abbrev ReadResult (w : Width) := State × Option (BitVec w.bits)

/-- A read of a byte-only region (R37, R47): another width raises `F1` before any effect. -/
def byteOnlyRead (s : State) (a : Nat) (w : Width) (k : AccessKind) (byteRead : State × Byte) : ReadResult w :=
  match w with
  | .byte => (byteRead.1, some byteRead.2)
  | .word => (raiseFatal s (.busNoSemantics a .word k), none)
  | .long => (raiseFatal s (.busNoSemantics a .long k), none)

/-- `MemRead(A, n)` (R47). -/
def memRead (s : State) (A : Nat) (w : Width) : ReadResult w :=
  let a := busAddr s.cfg A
  match region s.cfg a with
  | .ram => (s, some (ramRead s (ramOffset s.cfg a) w))
  | .rom => (s, some (romRead s (romOffset s.cfg a) w))
  | .iochip => byteOnlyRead s a w .read (iochipRead s a)
  | .hook => byteOnlyRead s a w .read (logWarning s (.unmappedSubreg a .read), 0)
  | .extra k =>
    if extraHas s.cfg k w then (logWarning s (.unmappedSubreg a .read), some 0)
    else (raiseFatal s (.busNoSemantics a w .read), none)
  | .unmapped => (logWarning s (.unmappedRead a w), some 0)

/-- A write of a byte-only region (R37, R48): another width raises `F1` before any effect. -/
def byteOnlyWrite (s : State) (a : Nat) (w : Width) (v : BitVec w.bits) (byteWrite : Byte → State) : State :=
  match w, v with
  | .byte, v => byteWrite v
  | .word, _ => raiseFatal s (.busNoSemantics a .word .write)
  | .long, _ => raiseFatal s (.busNoSemantics a .long .write)

/-- `MemWrite(A, n, v)` (R48). -/
def memWrite (s : State) (A : Nat) (w : Width) (v : BitVec w.bits) : State :=
  let a := busAddr s.cfg A
  match region s.cfg a with
  | .ram => ramWrite s (ramOffset s.cfg a) w v
  | .rom =>
    match s.cfg.romWritePolicy with
    | .fatal => raiseFatal s (.busNoSemantics a w .write)
    | .drop => logWarning s (.romWriteDropped a w v.toNat)
  | .iochip => byteOnlyWrite s a w v (iochipWrite s a)
  | .hook => byteOnlyWrite s a w v (discHook s)
  | .extra k =>
    if extraHas s.cfg k w then logWarning s (.unmappedSubreg a .write)
    else raiseFatal s (.busNoSemantics a w .write)
  | .unmapped => logWarning s (.unmappedWrite a w v.toNat)

/-- `Fetch(A)` (R49), always a word. -/
def fetchWord (s : State) (A : Nat) : ReadResult .word :=
  let a := busAddr s.cfg A
  match fetchRegion s.cfg s.overlay a with
  | .romAlias => (s, some (romRead s (aliasOffset s.cfg a) .word))
  | .plain .ram => (s, some (ramRead s (ramOffset s.cfg a) .word))
  | .plain .rom => (s, some (romRead s (romOffset s.cfg a) .word))
  | .plain .iochip => (raiseFatal s (.busNoSemantics a .word .fetch), none)
  | .plain .hook => (raiseFatal s (.busNoSemantics a .word .fetch), none)
  | .plain (.extra k) =>
    if extraHas s.cfg k .word then (logWarning s (.unmappedSubreg a .fetch), some 0)
    else (raiseFatal s (.busNoSemantics a .word .fetch), none)
  | .plain .unmapped => (logWarning s (.unmappedRead a .word), some 0)

/-- The end of a read: the value handed back, or none where the read raised `F1` (R87). -/
def finishRead (w : Width) (r : ReadResult w) : State := { r.1 with ret := r.2.map (retOf w) }

/-- `Dispatch(c)` (R102): the response to a latched command and the new event slot. -/
def kbdDispatch (s : State) (c : Byte) : State :=
  if c = s.cfg.kbdCmdModel then emit s (.srRx s.cfg.kbdRspModel)
  else if c = s.cfg.kbdCmdInquiry then
    if s.kbdEvtValid then { emit s (.srRx s.kbdEvt) with kbdEvtValid := false }
    else emit s (.srRx s.cfg.kbdRspNull)
  else
    let t := logWarning s (.kbdUnknownCmd c)
    match s.cfg.kbdOtherResponse.apply c with
    | some b => emit t (.srRx b)
    | none => t

/-- The array offset or sub-register an address selects in a region (R61), where it has one. -/
def selectIndex (c : Config) (a : Nat) : FetchRegion → Option Nat
  | .romAlias => some (aliasOffset c a)
  | .plain .ram => some (ramOffset c a)
  | .plain .rom => some (romOffset c a)
  | .plain .iochip => some (subreg c a)
  | .plain .hook => none
  | .plain (.extra _) => none
  | .plain .unmapped => none

/-- What the data decoder answers for an address (R38, R61). -/
def dataAnswer (s : State) (A : Nat) : AddrAnswer :=
  let a := busAddr s.cfg A
  ⟨.plain (region s.cfg a), selectIndex s.cfg a (.plain (region s.cfg a))⟩

/-- What the fetch decoder answers for an address under the overlay flag (R39, R61). -/
def fetchAnswer (s : State) (A : Nat) : AddrAnswer :=
  let a := busAddr s.cfg A
  ⟨fetchRegion s.cfg s.overlay a, selectIndex s.cfg a (fetchRegion s.cfg s.overlay a)⟩

/-- The next issued entry, taken off the list: an operation to run, an environment entry taken in, or a
refusal (R57, R59, R70, R74). With nothing issued the block does nothing (R5, R141). -/
def nextIssue (s : State) : Fetched :=
  match s.issued with
  | [] => .idle (beginOp s)
  | .envDev b :: rest => .environment { beginOp s with issued := rest, envDev := some b }
  | .envDisc v :: rest => .environment { beginOp s with issued := rest, envDisc := some v }
  | .value i :: rest => .run i { s with issued := rest }
  | .word e :: rest =>
    if s.cfg.addrBits = 24 then
      match decode e with
      | .ok i => .run i { s with issued := rest }
      | .error r => .refused (.undefinedEncoding r)
    else .refused .noWordForm

/-- Whether the drive slots fit the configuration (R28, R68). -/
def drivesFit (c : Config) (ds : List (Option Drive)) : Bool :=
  decide (ds.length = c.nDrives) &&
    ds.all fun d => match d with
      | none => true
      | some x => Mem.wf x.size x.buffer

/-- `INIT cfg, ram, rom` with the populated descriptor set (R143): the start state, or a refusal of a
configuration that breaks R8 or of buffers that do not fit it. -/
def powerOn (c : Config) (ram rom : Mem) (ds : List (Option Drive)) : Host.Outcome State Fault Refusal :=
  if c.valid then
    if Mem.wf c.ramSize ram && Mem.wf c.romSize rom && drivesFit c ds then .next (State.init c ram rom ds)
    else .refused .badBuffers
  else .refused .badConfig

end Sys2Proof.Machine
end

