-- ==== Sys2Proof/Machine/Address.lean ====
section
/-! DEFINITION. The five address rows of spec/opcode_table.json (30_encoding.md R61). "They are not
operations": the spec gives them no effect, only what an address decodes to. Each is modelled as the
question "what does the decoder answer for this address", which changes no register, no byte of
memory and emits no event (DESIGN CHOICE, entry 14). The answer is that of the configuration in force;
under REF it is the row's region. -/

namespace Sys2Proof.Machine

/-- `REGION.RAM` (R35): the data decoder's answer for an address with the row's fixed bits. -/
def execRegionRam (low : BitVec 22) (s : State) : Host.Outcome State Fault Refusal :=
  running s fun s => .next (returns s (.addr (dataAnswer s low.toNat)))

/-- `REGION.ROM` (R36). -/
def execRegionRom (low : BitVec 20) (s : State) : Host.Outcome State Fault Refusal :=
  running s fun s => .next (returns s (.addr (dataAnswer s (0x400000 + low.toNat))))

/-- `REGION.IOCHIP` (R41). -/
def execRegionIochip (low : BitVec 19) (s : State) : Host.Outcome State Fault Refusal :=
  running s fun s => .next (returns s (.addr (dataAnswer s (0xE80000 + low.toNat))))

/-- `REGION.HOOK` (R42). -/
def execRegionHook (s : State) : Host.Outcome State Fault Refusal :=
  running s fun s => .next (returns s (.addr (dataAnswer s 0xC00069)))

/-- `REGION.OVERLAY_ALIAS` (R39): the fetch decoder's answer, which depends on `overlay`. -/
def execRegionOverlayAlias (low : BitVec 22) (s : State) : Host.Outcome State Fault Refusal :=
  running s fun s => .next (returns s (.addr (fetchAnswer s low.toNat)))

end Sys2Proof.Machine
end

