-- ==== Sys2Proof/Machine/Bus.lean ====
section
/-! DEFINITION. The seven bus operations of the CPU port (40_bus_dispatch.md R75 to R82). -/

namespace Sys2Proof.Machine

/-- `RD.B A` (R76). -/
def execRdB (A : Nat) (s : State) : Host.Outcome State Fault Refusal :=
  running s fun s => .next (finishRead .byte (memRead s A .byte))

/-- `RD.W A` (R77). -/
def execRdW (A : Nat) (s : State) : Host.Outcome State Fault Refusal :=
  running s fun s => .next (finishRead .word (memRead s A .word))

/-- `RD.L A` (R78). -/
def execRdL (A : Nat) (s : State) : Host.Outcome State Fault Refusal :=
  running s fun s => .next (finishRead .long (memRead s A .long))

/-- `IF.W A` (R79). -/
def execIfW (A : Nat) (s : State) : Host.Outcome State Fault Refusal :=
  running s fun s => .next (finishRead .word (fetchWord s A))

/-- `WR.B A, v` (R80); at the hook address the hook write (R116). -/
def execWrB (A : Nat) (v : BitVec 8) (s : State) : Host.Outcome State Fault Refusal :=
  running s fun s => .next (memWrite s A .byte v)

/-- `WR.W A, v` (R81). -/
def execWrW (A : Nat) (v : BitVec 16) (s : State) : Host.Outcome State Fault Refusal :=
  running s fun s => .next (memWrite s A .word v)

/-- `WR.L A, v` (R82). -/
def execWrL (A : Nat) (v : BitVec 32) (s : State) : Host.Outcome State Fault Refusal :=
  running s fun s => .next (memWrite s A .long v)

end Sys2Proof.Machine
end

