-- ==== Sys2Proof/Machine/Control.lean ====
section
/-! DEFINITION. The overlay control (44_disc_hook_and_overlay.md R120) and the CPU port's RESET
(70_reset_and_hazards.md R145). -/

namespace Sys2Proof.Machine

/-- `RESET` (R145): the overlay comes on, nothing else changes. -/
def execReset (s : State) : Host.Outcome State Fault Refusal :=
  running s fun s => .next { s with overlay := true }

/-- `OVL.DRIVE v` (R120). -/
def execOvlDrive (v : Bool) (s : State) : Host.Outcome State Fault Refusal :=
  running s fun s => .next { s with overlay := v }

end Sys2Proof.Machine
end

