-- ==== Sys2Proof/Machine/Irq.lean ====
section
/-! DEFINITION. The interrupt controller's operations (41_interrupt_controller.md R90 to R92). -/

namespace Sys2Proof.Machine

/-- `IACK l` (R92): the response for the level; no state of the controller changes. -/
def execIack (level : BitVec 3) (s : State) : Host.Outcome State Fault Refusal :=
  running s fun s => .next (returns s (.ack (s.cfg.autovector.apply level)))

/-- `IRQ.RAISE s` (R90): the level goes up, and is sent, only on a changed mask and a strict increase. -/
def execIrqRaise (source : BitVec 3) (s : State) : Host.Outcome State Fault Refusal :=
  running s fun s =>
    let pending := setPending s.irqPending source
    if pending ≠ s.irqPending ∧ s.irqLevel.toNat < source.toNat then
      .next (emit { s with irqPending := pending, irqLevel := source } (.irqOut source))
    else .next { s with irqPending := pending }

/-- `IRQ.LOWER s` (R91): the mask is rescanned and the level sent, always. -/
def execIrqLower (source : BitVec 3) (s : State) : Host.Outcome State Fault Refusal :=
  running s fun s =>
    let pending := clearPending s.irqPending source
    let level := highestPending pending
    .next (emit { s with irqPending := pending, irqLevel := level } (.irqOut level))

end Sys2Proof.Machine
end

