-- ==== Sys2Proof/Machine/Keyboard.lean ====
section
/-! DEFINITION. The keyboard shift-register machine's operations (42_keyboard.md R99, R100, R103). -/

namespace Sys2Proof.Machine

/-- `KBD.CMD c` (R99): latch the byte with its arrival time, logging an overwrite. -/
def execKbdCmd (c : BitVec 8) (s : State) : Host.Outcome State Fault Refusal :=
  running s fun s =>
    let t := if s.kbdCmdValid then logWarning s (.kbdCmdOverwrite s.kbdCmd c) else s
    .next { t with kbdCmd := c, kbdCmdTime := s.timeUs, kbdCmdValid := true }

/-- `KBD.KEY sc, pressed` (R100): fill the event slot, logging an overwrite. -/
def execKbdKey (sc : BitVec 7) (pressed : Bool) (s : State) : Host.Outcome State Fault Refusal :=
  running s fun s =>
    let t := if s.kbdEvtValid then logWarning s (.kbdEventOverwrite s.kbdEvt) else s
    .next { t with kbdEvt := keyEvent s.cfg sc pressed, kbdEvtValid := true }

/-- `TICK t` (R103): take the time; answer a latched command whose dwell has elapsed and clear the
latch. A time before `time_us` is refused. -/
def execTick (now : BitVec 56) (s : State) : Host.Outcome State Fault Refusal :=
  running s fun s =>
    if now.toNat < s.timeUs.toNat then .refused (.timeRunsBack s.timeUs now)
    else
      let t := { s with timeUs := now }
      if t.kbdCmdValid && dwellElapsed t.cfg.kbdDwell t.timeUs t.kbdCmdTime then
        .next { kbdDispatch t t.kbdCmd with kbdCmdValid := false }
      else .next t

end Sys2Proof.Machine
end

