-- ==== Sys2Proof/Machine/Mouse.lean ====
section
/-! DEFINITION. The mouse coupling's operations (43_mouse.md R110, R111). -/

namespace Sys2Proof.Machine

/-- The cells' update on motion (R110): both accumulators from their old values, then the flag from
its old value. -/
def mouseMotion (s : State) (dx dy : BitVec 16) : State :=
  let x := ramRead s s.cfg.mouseXAddr .word
  let y := ramRead s s.cfg.mouseYAddr .word
  let s := ramWrite s s.cfg.mouseXAddr .word (cellPlus x dx)
  let s := ramWrite s s.cfg.mouseYAddr .word (cellMinus y dy)
  let f := ramRead s s.cfg.mouseNewAddr .byte
  ramWrite s s.cfg.mouseNewAddr .byte (s.cfg.mouseFlagNext.apply f)

/-- `MOUSE.MOVE dx, dy, button` (R110): the button level always, the cells on any motion. -/
def execMouseMove (dx dy : BitVec 16) (button : Bool) (s : State) : Host.Outcome State Fault Refusal :=
  running s fun s =>
    let t := { s with mouseButton := button }
    .next (if dx ≠ 0 ∨ dy ≠ 0 then mouseMotion t dx dy else t)

/-- `BTN.SAMPLE` (R111): the button level. -/
def execBtnSample (s : State) : Host.Outcome State Fault Refusal :=
  running s fun s => .next (returns s (.level s.mouseButton))

end Sys2Proof.Machine
end

