-- ==== Sys2Proof/Machine/Dispatch.lean ====
section
/-! DEFINITION. The dispatch: one arm per constructor of Instr, one direct call of its meaning. -/

namespace Sys2Proof.Machine

def exec (i : Instr) (s : State) : Host.Outcome State Fault Refusal :=
  match i with
  | .rdB addr => Sys2Proof.Machine.execRdB addr s
  | .rdW addr => Sys2Proof.Machine.execRdW addr s
  | .rdL addr => Sys2Proof.Machine.execRdL addr s
  | .ifW addr => Sys2Proof.Machine.execIfW addr s
  | .wrB addr v => Sys2Proof.Machine.execWrB addr v s
  | .wrW addr v => Sys2Proof.Machine.execWrW addr v s
  | .wrL addr v => Sys2Proof.Machine.execWrL addr v s
  | .iack level => Sys2Proof.Machine.execIack level s
  | .reset => Sys2Proof.Machine.execReset s
  | .irqRaise source => Sys2Proof.Machine.execIrqRaise source s
  | .irqLower source => Sys2Proof.Machine.execIrqLower source s
  | .kbdCmd c => Sys2Proof.Machine.execKbdCmd c s
  | .kbdKey sc pressed => Sys2Proof.Machine.execKbdKey sc pressed s
  | .tick t => Sys2Proof.Machine.execTick t s
  | .mouseMove dx dy button => Sys2Proof.Machine.execMouseMove dx dy button s
  | .btnSample => Sys2Proof.Machine.execBtnSample s
  | .ovlDrive v => Sys2Proof.Machine.execOvlDrive v s
  | .regionRam low => Sys2Proof.Machine.execRegionRam low s
  | .regionRom low => Sys2Proof.Machine.execRegionRom low s
  | .regionIochip low => Sys2Proof.Machine.execRegionIochip low s
  | .regionHook => Sys2Proof.Machine.execRegionHook s
  | .regionOverlayAlias low => Sys2Proof.Machine.execRegionOverlayAlias low s

end Sys2Proof.Machine
end

