-- ==== Sys2Proof/Machine/Step.lean ====
section
/-! DEFINITION. One step: refuse a configuration that breaks 00_scope.md R8, take the oldest issued entry,
run it. Operations are atomic and run one after another in the order issued (R6, 20_memory.md R53). -/

namespace Sys2Proof.Machine

/-- One step of the block. With nothing issued nothing happens (R5). -/
def step (s : State) : Host.Outcome State Fault Refusal :=
  if s.cfg.valid then
    match nextIssue s with
    | .idle t => .next t
    | .environment t => .next t
    | .run i t => exec i t
    | .refused r => .refused r
  else .refused .badConfig

/-- The state with one encoded operation, or address row, put before everything issued, so that the
very next step runs it (entry 3). -/
def State.withFetchWord (s : State) (nbits w : Nat) : State :=
  { s with issued := .word (tableEncoding nbits w) :: s.issued }

end Sys2Proof.Machine
end

