-- ==== Sys2Proof/Safety.lean ====
section
/-! DEFINITION. What a good state and a safe run are, in the terms the statements use. -/

namespace Sys2Proof.Machine

/-- The invariant of the block: the configuration meets R8, both arrays are in canonical form inside
their sizes, the cached level is the highest pending one (R18, R93), a latched command is not stamped
in the future (R23, R101), and the drive slots fit the configuration (R28). -/
def State.Inv (s : State) : Prop :=
  s.cfg.valid = true ∧
  Mem.wf s.cfg.ramSize s.ram = true ∧
  Mem.wf s.cfg.romSize s.rom = true ∧
  s.irqLevel = highestPending s.irqPending ∧
  (s.kbdCmdValid = true → s.kbdCmdTime.toNat ≤ s.timeUs.toNat) ∧
  drivesFit s.cfg s.drives = true

/-- A run that has not met a fatal condition: a Halted state is never a good final state (R130). -/
def State.Safe (s : State) : Prop := s.halted = false

/-- No diagnostic was logged by the last operation (R86, D36: a claim can demand "no warning logged"). -/
def State.Quiet (s : State) : Prop := ∀ w, Event.log w ∉ s.out

/-- The byte of RAM at an offset, as every statement reads it. -/
def State.ramByte (s : State) (i : Nat) : Byte := Mem.read s.ram i

/-- The byte of ROM at an offset. -/
def State.romByte (s : State) (i : Nat) : Byte := Mem.read s.rom i

/-- `v` is the big-endian value at RAM offset `i`: byte `k`, counted from the most significant, stands
at offset `(i + k) mod RAM_SIZE` (R44). -/
def State.HoldsRam (s : State) (i : Nat) (w : Width) (v : BitVec w.bits) : Prop :=
  ∀ k, k < w.bytes → v.extractLsb' (8 * (w.bytes - 1 - k)) 8 = s.ramByte ((i + k) % s.cfg.ramSize)

/-- `v` is the big-endian value at ROM offset `i` (R45). -/
def State.HoldsRom (s : State) (i : Nat) (w : Width) (v : BitVec w.bits) : Prop :=
  ∀ k, k < w.bytes → v.extractLsb' (8 * (w.bytes - 1 - k)) 8 = s.romByte ((i + k) % s.cfg.romSize)

/-- The data read of a width: `RD.B`, `RD.W` or `RD.L`. -/
def readOp : Width → Nat → Instr
  | .byte, A => .rdB A
  | .word, A => .rdW A
  | .long, A => .rdL A

/-- The data write of a width: `WR.B`, `WR.W` or `WR.L`. -/
def writeOp : (w : Width) → Nat → BitVec w.bits → Instr
  | .byte, A, v => .wrB A v
  | .word, A, v => .wrW A v
  | .long, A, v => .wrL A v

/-- The outcome with a function applied to its next state. -/
def mapNext (f : State → State) : Host.Outcome State Fault Refusal → Host.Outcome State Fault Refusal
  | .next t => .next (f t)
  | .fault r => .fault r
  | .refused r => .refused r

/-- `l` is the highest set bit index of the mask, or 0 if none is set (R18). -/
def IsHighest (p : BitVec 8) (l : BitVec 3) : Prop :=
  (l = 0 ∨ p.getLsbD l.toNat = true) ∧ ∀ j, l.toNat < j → j < 8 → p.getLsbD j = false

/-- The region that the first byte address of an access decides (R38). -/
def State.regionOf (s : State) (A : Nat) : Region := region s.cfg (busAddr s.cfg A)

end Sys2Proof.Machine
end

