-- ==== Sys2Proof/Certificates/Slice0/Obligations.lean ====
section
/-! DEFINITION. The statements for the provers, from the numbered rules of spec/. Each docstring names the
rules it formalises. No statement rests on the value of a free constant or of the field `draws`. -/

open Sys2Proof Sys2Proof.Machine

/-! ### Power-on, stepping, encoding -/

/-- R143: `INIT` with a configuration that meets R8 and buffers that fit gives the start state. -/
def Obligations.InitGivesTheStartState : Prop :=
  ∀ (c : Config) (ram rom : Mem) (ds : List (Option Drive)), c.valid = true → Mem.wf c.ramSize ram = true →
    Mem.wf c.romSize rom = true → drivesFit c ds = true →
    ∃ s, powerOn c ram rom ds = .next s ∧ s.overlay = true ∧ s.irqPending = 0 ∧ s.irqLevel = 0 ∧
      s.kbdCmdValid = false ∧ s.kbdEvtValid = false ∧ s.mouseButton = false ∧ s.timeUs = 0 ∧ s.halted = false ∧
      s.ram = ram ∧ s.rom = rom ∧ s.cfg = c ∧ s.drives = ds ∧ s.out = []

/-- The reset state, with the values R143 gives, meets the invariant. The configuration, the zero
buffers and the absent drives are the model's choice (entries 1, 7, 9). -/
def Obligations.ResetStateMeetsInvariant : Prop :=
  State.reset.Inv ∧ State.reset.overlay = true ∧ State.reset.irqPending = 0 ∧ State.reset.halted = false

/-- R8: what a valid configuration is, and that any other is refused. The multiple-of clause is R7's, and
that the step refuses it is the model's choice (entries 17, 18). -/
def Obligations.ValidConfigMeetsTheConstraints : Prop :=
  (∀ c : Config, c.valid = true ↔
    24 ≤ c.addrBits ∧ (∃ k, c.ramSize = 2 ^ k) ∧ (∃ k, c.ramWindow = 2 ^ k) ∧ (∃ k, c.romSize = 2 ^ k) ∧
    (∃ k, c.romWindow = 2 ^ k) ∧ 4 ≤ c.ramSize ∧ c.ramSize ≤ c.ramWindow ∧ 4 ≤ c.romSize ∧
    c.romSize ≤ c.romWindow ∧ c.romWindow ∣ c.romBase ∧ c.ovlSize ≤ c.ramWindow ∧
    ([(0, c.ramWindow), (c.romBase, c.romWindow), (c.iochipBase, c.iochipWindow), (c.discHookAddr, 1)] ++
      c.extraWindows.map fun x => (x.base, x.size)).Pairwise
      (fun r q => ∀ a, ¬ ((r.1 ≤ a ∧ a < r.1 + r.2) ∧ (q.1 ≤ a ∧ a < q.1 + q.2))) ∧
    (∀ r ∈ c.ranges, r.1 + r.2 ≤ 2 ^ c.addrBits) ∧
    c.mouseXAddr < c.ramSize ∧ c.mouseYAddr < c.ramSize ∧ c.mouseNewAddr < c.ramSize ∧
    [c.mouseXAddr, (c.mouseXAddr + 1) % c.ramSize, c.mouseYAddr, (c.mouseYAddr + 1) % c.ramSize,
      c.mouseNewAddr].Nodup ∧ c.kbdCmdModel ≠ c.kbdCmdInquiry) ∧
  (∀ s : State, s.cfg.valid = false → step s = .refused .badConfig)

/-- Tier 3: every step keeps the invariant, from every state that meets it. -/
def Obligations.EveryStepKeepsInvariant : Prop :=
  ∀ s t : State, s.Inv → step s = .next t → t.Inv

/-- A step on an issued encoding that decodes to a well-formed operation is `exec` of it, on the state
with that entry taken off; an operation issued as a value runs the same way (R57). That operations are issued
as a list is the model's choice (entries 2, 3, 12). -/
def Obligations.StepRunsTheIssuedOperation : Prop :=
  ∀ (s : State) (rest : List Issue), s.cfg.valid = true →
    (∀ e i, s.issued = .word e :: rest → s.cfg.addrBits = 24 → decode e = .ok i → i.wellFormed = true →
      step s = exec i { s with issued := rest }) ∧
    (∀ i, s.issued = .value i :: rest → step s = exec i { s with issued := rest })

/-- R74: the environment entries fix the next answers and run no operation; with nothing issued nothing
happens (R5). The list of entries is the model's choice (entries 2, 3). -/
def Obligations.StepTakesEnvironmentEntries : Prop :=
  ∀ (s : State) (rest : List Issue), s.cfg.valid = true →
    (s.issued = [] → step s = .next { s with out := [], ret := none }) ∧
    (∀ b, s.issued = .envDev b :: rest →
      step s = .next { s with issued := rest, envDev := some b, out := [], ret := none }) ∧
    (∀ v, s.issued = .envDisc v :: rest →
      step s = .next { s with issued := rest, envDisc := some v, out := [], ret := none })

/-- R59: a word decodes exactly when it matches a row of the table, and a step on any other is refused. -/
def Obligations.DecodeAcceptsExactlyTheTable : Prop :=
  (∀ w : BitVec 64, (∃ i, decodeOpw w = .ok i) ↔ ∃ r ∈ opwRows, w &&& r.maskBits = r.matchBits) ∧
  (∀ (s : State) (w : BitVec 64) (rest : List Issue), s.cfg.valid = true → s.cfg.addrBits = 24 →
    s.issued = .word (.opw w) :: rest → (∀ r ∈ opwRows, w &&& r.maskBits ≠ r.matchBits) →
    ∃ e, step s = .refused (.undefinedEncoding e))

/-- R70: the reserved `OP` values encode nothing. -/
def Obligations.ReservedOpValuesAreRefused : Prop :=
  ∀ w : BitVec 64, let n := (opField w).toNat
    (n = 0x07 ∨ (0x0A ≤ n ∧ n ≤ 0x0F) ∨ (0x12 ≤ n ∧ n ≤ 0x1F) ∨ (0x23 ≤ n ∧ n ≤ 0x2F) ∨
      (0x32 ≤ n ∧ n ≤ 0x37) ∨ (0x39 ≤ n ∧ n ≤ 0xFF)) →
    decodeOpw w = .error (.reservedOp (opField w))

/-- Tier 3: decoding the encoding of a well-formed operation gives the operation, for every constructor
and every operand. -/
def Obligations.DecodeOfEncodeIsIdentity : Prop :=
  ∀ i : Instr, i.wellFormed = true → decode (encode i) = .ok i

/-- Tier 3: a word that decodes is the encoding of what it decodes to, so no two words mean the same
operation (D39). -/
def Obligations.EncodeOfDecodeIsIdentity : Prop :=
  (∀ (w : BitVec 64) (i : Instr), decode (.opw w) = .ok i → i.wellFormed = true ∧ encode i = .opw w) ∧
  (∀ (a : BitVec 24) (i : Instr), decode (.addr .data a) = .ok i → encode i = .addr .data a)

/-- Words written out from R58 and R61: one of each family. That 24 bits are read as an address row is the
model's choice (entry 15). -/
def Obligations.WrittenWordsDecode : Prop :=
  decodeTableWord 64 0x0240000000000000 = some (.rdL 0x400000) ∧
  decodeTableWord 64 0x0601FFFEAABBCCDD = some (.wrL 0x01FFFE 0xAABBCCDD) ∧
  decodeTableWord 64 0x1000000000000007 = some (.irqRaise 7) ∧
  decodeTableWord 64 0x2100000000000133 = some (.kbdKey 0x33 true) ∧
  decodeTableWord 64 0x300000017FFF8000 = some (.mouseMove 0x8000 0x7FFF true) ∧
  decodeTableWord 64 0x3800000000000001 = some (.ovlDrive true) ∧
  decodeTableWord 24 0xE81200 = some (.regionIochip 0x01200)

/-! ### Address decoding -/

/-- R61, under REF: the mask and match pairs of the address rows are the region functions, and the index
bits are the array offsets and the sub-register. -/
def Obligations.AddressRowsAreTheReferenceMap : Prop :=
  ∀ a : BitVec 24,
    (region Config.ref a.toNat = .ram ↔ a &&& 0xC00000#24 = 0x000000#24) ∧
    (region Config.ref a.toNat = .rom ↔ a &&& 0xF00000#24 = 0x400000#24) ∧
    (region Config.ref a.toNat = .iochip ↔ a &&& 0xF80000#24 = 0xE80000#24) ∧
    (region Config.ref a.toNat = .hook ↔ a &&& 0xFFFFFF#24 = 0xC00069#24) ∧
    (fetchRegion Config.ref true a.toNat = .romAlias ↔ a &&& 0xC00000#24 = 0x000000#24) ∧
    ramOffset Config.ref a.toNat = (a.extractLsb' 0 17).toNat ∧
    aliasOffset Config.ref a.toNat = (a.extractLsb' 0 17).toNat ∧
    (region Config.ref a.toNat = .rom → romOffset Config.ref a.toNat = (a.extractLsb' 0 17).toNat) ∧
    subreg Config.ref a.toNat = (a.extractLsb' 9 4).toNat

/-- R38: the region function is the range tests, each address in exactly one region. -/
def Obligations.RegionIsTheRangeTest : Prop :=
  ∀ (c : Config) (a : Nat), c.valid = true →
    (region c a = .ram ↔ a < c.ramWindow) ∧
    (region c a = .rom ↔ c.romBase ≤ a ∧ a < c.romBase + c.romWindow) ∧
    (region c a = .iochip ↔ c.iochipBase ≤ a ∧ a < c.iochipBase + c.iochipWindow) ∧
    (region c a = .hook ↔ a = c.discHookAddr) ∧
    (∀ k, region c a = .extra k ↔ ∃ x, c.extraWindows[k]? = some x ∧ x.base ≤ a ∧ a < x.base + x.size) ∧
    (region c a = .unmapped ↔ ¬ a < c.ramWindow ∧ ¬ (c.romBase ≤ a ∧ a < c.romBase + c.romWindow) ∧
      ¬ (c.iochipBase ≤ a ∧ a < c.iochipBase + c.iochipWindow) ∧ a ≠ c.discHookAddr ∧
      ∀ x ∈ c.extraWindows, ¬ (x.base ≤ a ∧ a < x.base + x.size))

/-- R32, R35, R36, R39, R41: the address mask, the array offsets and the sub-register select are the
spec's bitwise masks. -/
def Obligations.OffsetsAreTheMasks : Prop :=
  ∀ (c : Config) (A : Nat), c.valid = true →
    busAddr c A = A &&& (2 ^ c.addrBits - 1) ∧
    ramOffset c A = A &&& (c.ramSize - 1) ∧
    romOffset c A = (A - c.romBase) &&& (c.romSize - 1) ∧
    aliasOffset c A = A &&& (c.romSize - 1) ∧
    subreg c A = (A >>> c.subregLo) &&& (2 ^ c.subregBits - 1)

/-- R44, R45: array access is big-endian, every byte offset reduced modulo the array's size; a RAM write
changes those bytes and no other. -/
def Obligations.ArrayAccessIsBigEndianAndWraps : Prop :=
  ∀ (s : State) (i : Nat) (w : Width), s.Inv →
    s.HoldsRam i w (ramRead s i w) ∧ s.HoldsRom i w (romRead s i w) ∧
    ∀ v : BitVec w.bits, (ramWrite s i w v).HoldsRam i w v ∧
      ∀ j, (∀ k, k < w.bytes → j ≠ (i + k) % s.cfg.ramSize) → (ramWrite s i w v).ramByte j = s.ramByte j

/-! ### Bus reads and fetch -/

/-- R47, R76 to R78: a read of RAM or ROM, of every width at every address, answers the big-endian value
and changes nothing. -/
def Obligations.ReadsOfRamAndRomComplete : Prop :=
  ∀ (s : State) (w : Width) (A : Nat), s.halted = false →
    (s.regionOf A = .ram → ∃ v : BitVec w.bits, s.HoldsRam (ramOffset s.cfg (busAddr s.cfg A)) w v ∧
      exec (readOp w A) s = .next { s with out := [], ret := some (retOf w v) }) ∧
    (s.regionOf A = .rom → ∃ v : BitVec w.bits, s.HoldsRom (romOffset s.cfg (busAddr s.cfg A)) w v ∧
      exec (readOp w A) s = .next { s with out := [], ret := some (retOf w v) })

/-- R41: a byte read of the I/O chip window emits `dev_read` of the selected sub-register and returns the
byte answered: the one the environment fixed, else a free one (entry 4). A hole answers 0 and logs `W3`; that
its `dev_read` is emitted first is the model's choice (entry 10). -/
def Obligations.DeviceReadAnswersTheChip : Prop :=
  ∀ (s : State) (A : Nat), s.halted = false → s.regionOf A = .iochip →
    let r := subreg s.cfg (busAddr s.cfg A)
    (r ∉ s.cfg.iochipHoles → ∃ b : Byte, (∀ x, s.envDev = some x → b = x) ∧
      exec (.rdB A) s = .next { s with
        out := [.devRead r b], ret := some (.byte b), envDev := none, draws := s.draws + 1 }) ∧
    (r ∈ s.cfg.iochipHoles →
      exec (.rdB A) s = .next { s with
        out := [.devRead r 0, .log (.unmappedSubreg (busAddr s.cfg A) .read)], ret := some (.byte 0) })

/-- R40, R42, R37: tolerated reads return 0 of the access's width, log once and change nothing. -/
def Obligations.ToleratedReadsReturnZero : Prop :=
  ∀ (s : State) (w : Width) (A : Nat), s.halted = false →
    (s.regionOf A = .unmapped → exec (readOp w A) s = .next { s with
      out := [.log (.unmappedRead (busAddr s.cfg A) w)], ret := some (retOf w 0) }) ∧
    (s.regionOf A = .hook → w = .byte → exec (readOp w A) s = .next { s with
      out := [.log (.unmappedSubreg (busAddr s.cfg A) .read)], ret := some (retOf w 0) }) ∧
    (∀ k, s.regionOf A = .extra k → extraHas s.cfg k w = true → exec (readOp w A) s = .next { s with
      out := [.log (.unmappedSubreg (busAddr s.cfg A) .read)], ret := some (retOf w 0) })

/-- R75, R125: a read of a width the region lacks raises `F1` before any effect: nothing but `halted`
changes, nothing is returned. -/
def Obligations.ReadsOfALackingWidthHalt : Prop :=
  ∀ (s : State) (w : Width) (A : Nat), s.halted = false →
    ((s.regionOf A = .iochip ∨ s.regionOf A = .hook) ∧ w ≠ .byte ∨
      ∃ k, s.regionOf A = .extra k ∧ extraHas s.cfg k w = false) →
    exec (readOp w A) s = .next { s with
      halted := true, out := [.fatal (.busNoSemantics (busAddr s.cfg A) w .read)], ret := none }

/-- R49, R79: a fetch reads ROM below `OVL_SIZE` while the overlay is on, else RAM or ROM as the data
decoder says, and changes nothing. -/
def Obligations.FetchReadsTheOverlaidMap : Prop :=
  ∀ (s : State) (A : Nat), s.halted = false → let a := busAddr s.cfg A
    (s.overlay = true → a < s.cfg.ovlSize → ∃ v : BitVec 16, s.HoldsRom (aliasOffset s.cfg a) .word v ∧
      exec (.ifW A) s = .next { s with out := [], ret := some (.word v) }) ∧
    (s.overlay = false ∨ s.cfg.ovlSize ≤ a →
      (s.regionOf A = .ram → ∃ v : BitVec 16, s.HoldsRam (ramOffset s.cfg a) .word v ∧
        exec (.ifW A) s = .next { s with out := [], ret := some (.word v) }) ∧
      (s.regionOf A = .rom → ∃ v : BitVec 16, s.HoldsRom (romOffset s.cfg a) .word v ∧
        exec (.ifW A) s = .next { s with out := [], ret := some (.word v) }))

/-- R49, R125: a fetch outside RAM, ROM and the alias: tolerated with 0, or `F1` from a byte-only window. -/
def Obligations.FetchElsewhereIsToleratedOrHalts : Prop :=
  ∀ (s : State) (A : Nat), s.halted = false → let a := busAddr s.cfg A
    (s.overlay = false ∨ s.cfg.ovlSize ≤ a) →
    (s.regionOf A = .unmapped → exec (.ifW A) s = .next { s with
      out := [.log (.unmappedRead a .word)], ret := some (.word 0) }) ∧
    (∀ k, s.regionOf A = .extra k → extraHas s.cfg k .word = true → exec (.ifW A) s = .next { s with
      out := [.log (.unmappedSubreg a .fetch)], ret := some (.word 0) }) ∧
    ((s.regionOf A = .iochip ∨ s.regionOf A = .hook ∨ ∃ k, s.regionOf A = .extra k ∧ extraHas s.cfg k .word = false) →
      exec (.ifW A) s = .next { s with
        halted := true, out := [.fatal (.busNoSemantics a .word .fetch)], ret := none })

/-! ### Bus writes -/

/-- R48, R80 to R82: a write to RAM stores the value's bytes, most significant first, at the wrapped
offsets; every other byte and every register is unchanged. -/
def Obligations.RamWritesStoreTheBytes : Prop :=
  ∀ (s : State) (w : Width) (A : Nat) (v : BitVec w.bits), s.Inv → s.halted = false → s.regionOf A = .ram →
    ∃ t : State, exec (writeOp w A v) s = .next t ∧ t = { s with ram := t.ram, out := [], ret := none } ∧
      t.HoldsRam (ramOffset s.cfg (busAddr s.cfg A)) w v ∧
      ∀ j, (∀ k, k < w.bytes → j ≠ (ramOffset s.cfg (busAddr s.cfg A) + k) % s.cfg.ramSize) →
        t.ramByte j = s.ramByte j

/-- R83: a RAM write directly followed by a read of the same width and address returns the value. -/
def Obligations.RamRoundTrip : Prop :=
  ∀ (s : State) (w : Width) (A : Nat) (v : BitVec w.bits), s.Inv → s.halted = false → s.regionOf A = .ram →
    ∃ t u : State, exec (writeOp w A v) s = .next t ∧ exec (readOp w A) t = .next u ∧
      u.ret = some (retOf w v)

/-- R36, R37, R40: a tolerated write is dropped: one log event and no change. -/
def Obligations.ToleratedWritesAreDropped : Prop :=
  ∀ (s : State) (w : Width) (A : Nat) (v : BitVec w.bits), s.halted = false →
    (s.regionOf A = .unmapped → exec (writeOp w A v) s = .next { s with
      out := [.log (.unmappedWrite (busAddr s.cfg A) w v.toNat)], ret := none }) ∧
    (s.regionOf A = .rom → s.cfg.romWritePolicy = .drop → exec (writeOp w A v) s = .next { s with
      out := [.log (.romWriteDropped (busAddr s.cfg A) w v.toNat)], ret := none }) ∧
    (∀ k, s.regionOf A = .extra k → extraHas s.cfg k w = true → exec (writeOp w A v) s = .next { s with
      out := [.log (.unmappedSubreg (busAddr s.cfg A) .write)], ret := none })

/-- R75, R125: a write of a width the region lacks, or to ROM under policy `fatal`, raises `F1` before
any effect: no byte is written, no device or disc event is emitted. -/
def Obligations.WritesWithoutSemanticsHalt : Prop :=
  ∀ (s : State) (w : Width) (A : Nat) (v : BitVec w.bits), s.halted = false →
    ((s.regionOf A = .iochip ∨ s.regionOf A = .hook) ∧ w ≠ .byte ∨
      s.regionOf A = .rom ∧ s.cfg.romWritePolicy = .fatal ∨
      ∃ k, s.regionOf A = .extra k ∧ extraHas s.cfg k w = false) →
    exec (writeOp w A v) s = .next { s with
      halted := true, out := [.fatal (.busNoSemantics (busAddr s.cfg A) w .write)], ret := none }

/-- R41: a byte write of the I/O chip window emits `dev_write` of the selected sub-register; a hole logs
`W3` as well, after it (the model's choice, entry 10). No state of the block changes. -/
def Obligations.DeviceWriteReachesTheChip : Prop :=
  ∀ (s : State) (A : Nat) (v : BitVec 8), s.halted = false → s.regionOf A = .iochip →
    let r := subreg s.cfg (busAddr s.cfg A)
    (r ∉ s.cfg.iochipHoles → exec (.wrB A v) s = .next { s with out := [.devWrite r v], ret := none }) ∧
    (r ∈ s.cfg.iochipHoles → exec (.wrB A v) s = .next { s with
      out := [.devWrite r v, .log (.unmappedSubreg (busAddr s.cfg A) .write)], ret := none })

/-- R116: the hook write forwards the byte, and halts the block exactly when the status answered is not
zero; RAM and the drive buffers may hold any bytes after it (R56), no register but `halted` changes,
and an absent slot stays absent (R28). How the handler's effects are drawn is the model's choice (entry 6). -/
def Obligations.HookWriteForwardsAndTestsStatus : Prop :=
  ∀ (s : State) (A : Nat) (v : BitVec 8), s.halted = false → s.regionOf A = .hook →
    ∃ (status : BitVec 32) (m : Mem) (ds : List (Option Drive)),
      (∀ x, s.envDisc = some x → status = x) ∧ Mem.wf s.cfg.ramSize m = true ∧
      ds.length = s.drives.length ∧ (∀ k : Nat, s.drives[k]? = some none ↔ ds[k]? = some none) ∧
      exec (.wrB A v) s = .next { s with
        ram := m, drives := ds, envDisc := none, draws := s.draws + 1, ret := none,
        halted := decide (status ≠ 0),
        out := if status = 0 then [.discCmd v status] else [.discCmd v status, .fatal (.discHookFailed v status)] }

/-- R117: nothing but a byte write of the hook address calls the disc collaborator. -/
def Obligations.OnlyTheHookByteWriteCallsTheDisc : Prop :=
  ∀ (i : Instr) (s t : State) (b : Byte) (status : BitVec 32), exec i s = .next t → .discCmd b status ∈ t.out →
    ∃ A, i = .wrB A b ∧ s.regionOf A = .hook

/-! ### Laws of the bus -/

/-- R84: data access does not read `overlay`, and a fetch reads it only below `OVL_SIZE`. -/
def Obligations.OverlayReachesOnlyLowFetches : Prop :=
  ∀ (s : State) (o : Bool) (A : Nat),
    (∀ w, exec (readOp w A) { s with overlay := o } = mapNext (fun t => { t with overlay := o }) (exec (readOp w A) s)) ∧
    (∀ (w : Width) (v : BitVec w.bits), exec (writeOp w A v) { s with overlay := o } =
      mapNext (fun t => { t with overlay := o }) (exec (writeOp w A v) s)) ∧
    (s.cfg.ovlSize ≤ busAddr s.cfg A →
      exec (.ifW A) { s with overlay := o } = mapNext (fun t => { t with overlay := o }) (exec (.ifW A) s))

/-- R55: a stored word is what the next fetch of it returns where that fetch decodes to RAM; under the
overlay the fetch returns what it returned before the store. -/
def Obligations.FetchSeesTheStoredWord : Prop :=
  ∀ (s : State) (A : Nat) (v : BitVec 16), s.Inv → s.halted = false → s.regionOf A = .ram →
    ∃ t : State, exec (.wrW A v) s = .next t ∧
      (s.overlay = false ∨ s.cfg.ovlSize ≤ busAddr s.cfg A →
        ∃ u, exec (.ifW A) t = .next u ∧ u.ret = some (.word v)) ∧
      (s.overlay = true → busAddr s.cfg A < s.cfg.ovlSize →
        ∃ u u', exec (.ifW A) s = .next u ∧ exec (.ifW A) t = .next u' ∧ u'.ret = u.ret)

/-- R51: a read or fetch outside the I/O chip window leaves the state as it is, and repeated it gives
the same again. -/
def Obligations.PlainReadsAreIdempotent : Prop :=
  ∀ (i : Instr) (s t : State) (A : Nat), (i = .ifW A ∨ ∃ w, i = readOp w A) → s.regionOf A ≠ .iochip →
    exec i s = .next t → t.halted = false →
    t = { s with out := t.out, ret := t.ret } ∧ exec i t = .next t

/-- R26, R155: no operation writes ROM or changes the configuration. -/
def Obligations.RomIsReadOnly : Prop :=
  ∀ (i : Instr) (s t : State), exec i s = .next t →
    (∀ j, t.romByte j = s.romByte j) ∧ t.rom = s.rom ∧ t.cfg = s.cfg

/-- R25, R56: only the data writes and mouse motion change RAM, and only the hook write the drives. -/
def Obligations.RamChangesOnlyByWritesAndMouse : Prop :=
  ∀ (i : Instr) (s t : State), exec i s = .next t →
    ((∀ w A v, i ≠ writeOp w A v) → (∀ dx dy b, i ≠ .mouseMove dx dy b) → ∀ j, t.ramByte j = s.ramByte j) ∧
    ((∀ A v, ¬ (i = .wrB A v ∧ s.regionOf A = .hook)) → t.drives = s.drives)

/-- R13, R16, R17, R18, R19, R20, R22, R23: each register is written only by the operations its rule
names. -/
def Obligations.RegistersHaveOnlyTheirWriters : Prop :=
  ∀ (i : Instr) (s t : State), exec i s = .next t →
    ((∀ v, i ≠ .ovlDrive v) → i ≠ .reset → t.overlay = s.overlay) ∧
    ((∀ x, i ≠ .irqRaise x) → (∀ x, i ≠ .irqLower x) → t.irqPending = s.irqPending ∧ t.irqLevel = s.irqLevel) ∧
    ((∀ c, i ≠ .kbdCmd c) → (∀ x, i ≠ .tick x) →
      t.kbdCmdValid = s.kbdCmdValid ∧ t.kbdCmd = s.kbdCmd ∧ t.kbdCmdTime = s.kbdCmdTime) ∧
    ((∀ k p, i ≠ .kbdKey k p) → (∀ x, i ≠ .tick x) → t.kbdEvtValid = s.kbdEvtValid ∧ t.kbdEvt = s.kbdEvt) ∧
    ((∀ dx dy b, i ≠ .mouseMove dx dy b) → t.mouseButton = s.mouseButton) ∧
    ((∀ x, i ≠ .tick x) → t.timeUs = s.timeUs)

/-- R23: the time never decreases, and a `TICK` sets it. -/
def Obligations.TimeNeverDecreases : Prop :=
  ∀ (i : Instr) (s t : State), exec i s = .next t →
    s.timeUs.toNat ≤ t.timeUs.toNat ∧ ∀ x, i = .tick x → t.timeUs = x

/-! ### Fatal conditions and Halted -/

/-- R130: while halted every operation stops, and no step changes a register or clears `halted`. That the
stop is the fault `halted` is the model's reading of "refused" (entry 11). -/
def Obligations.HaltedIsTerminal : Prop :=
  ∀ s : State, s.halted = true →
    (∀ i, exec i s = .fault .halted) ∧
    (∀ t, step s = .next t →
      t = { s with issued := t.issued, envDev := t.envDev, envDisc := t.envDisc, out := [], ret := none })

/-- R123, R125, R126: only a bus operation halts the block, never on RAM and never on an unmapped
address. -/
def Obligations.OnlyBusOperationsHalt : Prop :=
  ∀ (i : Instr) (s t : State), exec i s = .next t → t.halted = true →
    ∃ A, ((∃ w, i = readOp w A) ∨ i = .ifW A ∨ ∃ w v, i = writeOp w A v) ∧
      s.regionOf A ≠ .ram ∧ s.regionOf A ≠ .unmapped

/-- R124: an operation that raises a fatal condition ends with it: `halted` is set exactly when a fatal
event was emitted, the event is the last one, and nothing is returned. -/
def Obligations.FatalEndsTheOperation : Prop :=
  ∀ (i : Instr) (s t : State), exec i s = .next t →
    (t.halted = true ↔ ∃ f, .fatal f ∈ t.out) ∧
    (t.halted = true → t.ret = none ∧ ∃ f, t.out.getLast? = some (.fatal f))

/-! ### Interrupts -/

/-- R92: the acknowledge returns the level's response, the single token under REF, and changes nothing. -/
def Obligations.IackReturnsTheAutovector : Prop :=
  ∀ (s : State) (l : BitVec 3), (s.cfg = Config.ref → s.cfg.autovector.apply l = .autovec) ∧
    (s.halted = false →
      exec (.iack l) s = .next { s with out := [], ret := some (.ack (s.cfg.autovector.apply l)) }) ∧
    (s.halted = true → ∀ t, exec (.iack l) s ≠ .next t)

/-- R90: a raise sets the source's bit; the level changes and is sent only on a changed mask and a strict
increase. -/
def Obligations.RaiseSetsBitAndMayRaiseLevel : Prop :=
  ∀ (s : State) (x : BitVec 3), (s.halted = true → ∀ t, exec (.irqRaise x) s ≠ .next t) ∧ (s.halted = false →
    ∃ p : BitVec 8, (∀ j, j < 8 → p.getLsbD j = (decide (j = x.toNat) || s.irqPending.getLsbD j)) ∧
      (s.irqPending.getLsbD x.toNat = false → s.irqLevel.toNat < x.toNat →
        exec (.irqRaise x) s = .next { s with irqPending := p, irqLevel := x, out := [.irqOut x], ret := none }) ∧
      (s.irqPending.getLsbD x.toNat = true ∨ x.toNat ≤ s.irqLevel.toNat →
        exec (.irqRaise x) s = .next { s with irqPending := p, out := [], ret := none }))

/-- R91: a lower clears the source's bit, rescans for the highest level and sends it, always. -/
def Obligations.LowerClearsBitAndSendsLevel : Prop :=
  ∀ (s : State) (x : BitVec 3), (s.halted = true → ∀ t, exec (.irqLower x) s ≠ .next t) ∧ (s.halted = false →
    ∃ (p : BitVec 8) (l : BitVec 3),
      (∀ j, j < 8 → p.getLsbD j = (!decide (j = x.toNat) && s.irqPending.getLsbD j)) ∧ IsHighest p l ∧
      exec (.irqLower x) s = .next { s with irqPending := p, irqLevel := l, out := [.irqOut l], ret := none })

/-- R93: from power-on and after every operation the cached level is the highest set bit index of the
mask, or 0 if none is set. -/
def Obligations.LevelIsTheHighestPending : Prop :=
  (∀ (c : Config) (ram rom : Mem) (ds : List (Option Drive)) (s : State), powerOn c ram rom ds = .next s →
    IsHighest s.irqPending s.irqLevel) ∧
  (∀ (i : Instr) (s t : State), IsHighest s.irqPending s.irqLevel → exec i s = .next t →
    IsHighest t.irqPending t.irqLevel)

/-- R94: the CPU line holds the cached level when the operation ends: a change of it is sent, and
whatever is sent is it. -/
def Obligations.CpuLineFollowsTheLevel : Prop :=
  ∀ (i : Instr) (s t : State), exec i s = .next t →
    (∀ l, .irqOut l ∈ t.out → l = t.irqLevel) ∧ (t.irqLevel ≠ s.irqLevel → .irqOut t.irqLevel ∈ t.out)

/-- R95: source level 0 is recorded and never interrupts. -/
def Obligations.SourceZeroNeverInterrupts : Prop :=
  ∀ s : State, s.Inv → s.halted = false →
    (∃ p : BitVec 8, p.getLsbD 0 = true ∧ (∀ j, 0 < j → j < 8 → p.getLsbD j = s.irqPending.getLsbD j) ∧
      exec (.irqRaise 0) s = .next { s with irqPending := p, out := [], ret := none }) ∧
    (∃ p : BitVec 8, p.getLsbD 0 = false ∧ (∀ j, 0 < j → j < 8 → p.getLsbD j = s.irqPending.getLsbD j) ∧
      exec (.irqLower 0) s = .next { s with irqPending := p, out := [.irqOut s.irqLevel], ret := none }) ∧
    (s.irqPending = 0x01#8 → s.irqLevel = 0)

/-! ### Keyboard -/

/-- R99: a command is latched with its arrival time, an overwrite is logged, nothing is answered. -/
def Obligations.KbdCmdLatchesTheByte : Prop :=
  ∀ (s : State) (c : BitVec 8),
    (s.halted = true → ∀ t, exec (.kbdCmd c) s ≠ .next t) ∧
    (s.halted = false → exec (.kbdCmd c) s = .next { s with
      kbdCmdValid := true, kbdCmd := c, kbdCmdTime := s.timeUs, ret := none,
      out := if s.kbdCmdValid then [.log (.kbdCmdOverwrite s.kbdCmd c)] else [] })

/-- R100, R66: a key event fills the slot with the direction bit above the scancode, an overwrite is
logged. -/
def Obligations.KbdKeyFillsTheSlot : Prop :=
  ∀ (s : State) (sc : BitVec 7) (pressed : Bool),
    (s.halted = true → ∀ t, exec (.kbdKey sc pressed) s ≠ .next t) ∧
    (s.halted = false → ∃ e : BitVec 8, e.extractLsb' 0 7 = sc ∧
      e.getLsbD 7 = (if pressed then s.cfg.kbdDirDown else !s.cfg.kbdDirDown) ∧
      exec (.kbdKey sc pressed) s = .next { s with
        kbdEvtValid := true, kbdEvt := e, ret := none,
        out := if s.kbdEvtValid then [.log (.kbdEventOverwrite s.kbdEvt)] else [] })

/-- R101 to R103: every transition of a `TICK`; a `TICK` before the block's time is refused. -/
def Obligations.TickFollowsTheTransitionTable : Prop :=
  ∀ (s : State) (x : BitVec 56), (s.halted = true → ∀ t, exec (.tick x) s ≠ .next t) ∧
    (s.halted = false → x.toNat < s.timeUs.toNat → ∀ t, exec (.tick x) s ≠ .next t) ∧
    (s.halted = false → s.timeUs.toNat ≤ x.toNat →
    (s.kbdCmdValid = false ∨ (x.toNat : Int) - s.kbdCmdTime.toNat < s.cfg.kbdDwell →
      exec (.tick x) s = .next { s with timeUs := x, out := [], ret := none }) ∧
    (s.kbdCmdValid = true → (s.cfg.kbdDwell : Int) ≤ (x.toNat : Int) - s.kbdCmdTime.toNat →
      (s.kbdCmd = s.cfg.kbdCmdModel → exec (.tick x) s = .next { s with
        timeUs := x, kbdCmdValid := false, out := [.srRx s.cfg.kbdRspModel], ret := none }) ∧
      (s.kbdCmd ≠ s.cfg.kbdCmdModel → s.kbdCmd = s.cfg.kbdCmdInquiry → s.kbdEvtValid = true →
        exec (.tick x) s = .next { s with
          timeUs := x, kbdCmdValid := false, kbdEvtValid := false, out := [.srRx s.kbdEvt], ret := none }) ∧
      (s.kbdCmd ≠ s.cfg.kbdCmdModel → s.kbdCmd = s.cfg.kbdCmdInquiry → s.kbdEvtValid = false →
        exec (.tick x) s = .next { s with
          timeUs := x, kbdCmdValid := false, out := [.srRx s.cfg.kbdRspNull], ret := none }) ∧
      (s.kbdCmd ≠ s.cfg.kbdCmdModel → s.kbdCmd ≠ s.cfg.kbdCmdInquiry →
        exec (.tick x) s = .next { s with
          timeUs := x, kbdCmdValid := false, ret := none,
          out := match s.cfg.kbdOtherResponse.apply s.kbdCmd with
            | some b => [.log (.kbdUnknownCmd s.kbdCmd), .srRx b]
            | none => [.log (.kbdUnknownCmd s.kbdCmd)] })))

/-- R105: the three keyboard properties: the model response exactly once, the null response to an inquiry
with no event, and the key-down event of scancode 0x33 delivered with the slot empty afterwards. -/
def Obligations.KeyboardAnswersAsStated : Prop :=
  ∀ s : State, s.cfg.valid = true → s.halted = false →
    (∃ s1, exec (.kbdCmd s.cfg.kbdCmdModel) s = .next s1 ∧
      ∀ x : BitVec 56, s.timeUs.toNat + s.cfg.kbdDwell ≤ x.toNat →
        ∃ s2, exec (.tick x) s1 = .next s2 ∧ s2.out = [.srRx s.cfg.kbdRspModel] ∧
          ∀ y : BitVec 56, x.toNat ≤ y.toNat →
            ∃ s3, exec (.tick y) s2 = .next s3 ∧ s3.out = [] ∧ s3.kbdCmdValid = false) ∧
    (s.kbdEvtValid = false → ∃ s1, exec (.kbdCmd s.cfg.kbdCmdInquiry) s = .next s1 ∧
      ∀ x : BitVec 56, s.timeUs.toNat + s.cfg.kbdDwell ≤ x.toNat →
        ∃ s2, exec (.tick x) s1 = .next s2 ∧ s2.out = [.srRx s.cfg.kbdRspNull]) ∧
    (∃ s1 s2, exec (.kbdKey 0x33 true) s = .next s1 ∧ exec (.kbdCmd s.cfg.kbdCmdInquiry) s1 = .next s2 ∧
      ∀ x : BitVec 56, s.timeUs.toNat + s.cfg.kbdDwell ≤ x.toNat →
        ∃ s3, exec (.tick x) s2 = .next s3 ∧ s3.out = [.srRx (BitVec.ofBool s.cfg.kbdDirDown ++ 0x33#7)] ∧
          s3.kbdEvtValid = false)

/-- R152: a response comes only from a `TICK` that finds a latched command whose dwell has elapsed, and
that `TICK` clears the latch. -/
def Obligations.NoResponseBeforeTheDwell : Prop :=
  ∀ (i : Instr) (s t : State) (b : Byte), exec i s = .next t → .srRx b ∈ t.out →
    ∃ x, i = .tick x ∧ s.kbdCmdValid = true ∧ s.kbdCmdTime.toNat + s.cfg.kbdDwell ≤ x.toNat ∧
      t.kbdCmdValid = false

/-! ### Mouse, overlay, reset, address rows -/

/-- R110, R112, R113: refused while halted; the button level always; on motion the two cells move modulo 2^16, the vertical one
down, the flag takes its next value, and every other byte of RAM is unchanged. -/
def Obligations.MouseMoveIntegratesMotion : Prop :=
  ∀ (s : State) (dx dy : BitVec 16) (b : Bool), s.Inv →
    (s.halted = true → ∀ t, exec (.mouseMove dx dy b) s ≠ .next t) ∧ (s.halted = false →
    (dx = 0 → dy = 0 → exec (.mouseMove dx dy b) s = .next { s with mouseButton := b, out := [], ret := none }) ∧
    (dx ≠ 0 ∨ dy ≠ 0 → ∃ t : State, exec (.mouseMove dx dy b) s = .next t ∧
      t = { s with mouseButton := b, ram := t.ram, out := [], ret := none } ∧
      (∀ X : BitVec 16, s.HoldsRam s.cfg.mouseXAddr .word X → ∃ X' : BitVec 16,
        t.HoldsRam s.cfg.mouseXAddr .word X' ∧ (X'.toNat : Int) = ((X.toNat : Int) + dx.toInt) % 2 ^ 16) ∧
      (∀ Y : BitVec 16, s.HoldsRam s.cfg.mouseYAddr .word Y → ∃ Y' : BitVec 16,
        t.HoldsRam s.cfg.mouseYAddr .word Y' ∧ (Y'.toNat : Int) = ((Y.toNat : Int) - dy.toInt) % 2 ^ 16) ∧
      t.ramByte s.cfg.mouseNewAddr = s.cfg.mouseFlagNext.apply (s.ramByte s.cfg.mouseNewAddr) ∧
      ∀ j, j ∉ s.cfg.mouseBytes → t.ramByte j = s.ramByte j))

/-- R111: a sample returns the button level and changes nothing. -/
def Obligations.BtnSampleReturnsTheLevel : Prop :=
  ∀ s : State,
    (s.halted = false → exec .btnSample s = .next { s with out := [], ret := some (.level s.mouseButton) }) ∧
    (s.halted = true → ∀ t, exec .btnSample s ≠ .next t)

/-- R120: `OVL.DRIVE v` sets the overlay flag to `v` and changes nothing else. -/
def Obligations.OvlDriveSetsTheOverlay : Prop :=
  ∀ (s : State) (v : Bool),
    (s.halted = false → exec (.ovlDrive v) s = .next { s with overlay := v, out := [], ret := none }) ∧
    (s.halted = true → ∀ t, exec (.ovlDrive v) s ≠ .next t)

/-- R145: `RESET` sets the overlay flag and changes nothing else. -/
def Obligations.ResetOperationSetsOnlyTheOverlay : Prop :=
  ∀ s : State,
    (s.halted = false → exec .reset s = .next { s with overlay := true, out := [], ret := none }) ∧
    (s.halted = true → ∀ t, exec .reset s ≠ .next t)

/-- The five address rows complete in every running state, change nothing and answer the address decoder;
under REF the answer is the row's region and index (R61). That a row is asked as an operation is the
model's choice (entry 14). -/
def Obligations.AddressRowsAnswerTheDecoder : Prop :=
  ∀ s : State, s.halted = false →
    (∀ low, exec (.regionRam low) s = .next { s with out := [], ret := some (.addr (dataAnswer s low.toNat)) }) ∧
    (∀ low, exec (.regionRom low) s =
      .next { s with out := [], ret := some (.addr (dataAnswer s (0x400000 + low.toNat))) }) ∧
    (∀ low, exec (.regionIochip low) s =
      .next { s with out := [], ret := some (.addr (dataAnswer s (0xE80000 + low.toNat))) }) ∧
    (exec .regionHook s = .next { s with out := [], ret := some (.addr (dataAnswer s 0xC00069)) }) ∧
    (∀ low, exec (.regionOverlayAlias low) s =
      .next { s with out := [], ret := some (.addr (fetchAnswer s low.toNat)) }) ∧
    (s.cfg = Config.ref →
      (∀ low : BitVec 22, dataAnswer s low.toNat = ⟨.plain .ram, some (low.extractLsb' 0 17).toNat⟩) ∧
      (∀ low : BitVec 20, dataAnswer s (0x400000 + low.toNat) = ⟨.plain .rom, some (low.extractLsb' 0 17).toNat⟩) ∧
      (∀ low : BitVec 19, dataAnswer s (0xE80000 + low.toNat) = ⟨.plain .iochip, some (low.extractLsb' 9 4).toNat⟩) ∧
      dataAnswer s 0xC00069 = ⟨.plain .hook, none⟩ ∧
      (∀ low : BitVec 22, fetchAnswer s low.toNat =
        ⟨if s.overlay then .romAlias else .plain .ram, some (low.extractLsb' 0 17).toNat⟩))
end

