-- ==== Sys2Proof/Laws/Decode.lean ====
section
/-! SUPPORT. The three fields of an operation word (30_encoding.md R57). -/

namespace Sys2Proof

/-- Field `OP` of a word put together from its fields. -/
theorem opField_word (op : BitVec 8) (A : BitVec 24) (D : BitVec 32) : opField (op ++ A ++ D) = op := by
  rw [opField, BitVec.extractLsb'_append_eq_of_le (by decide)]
  exact BitVec.extractLsb'_append_eq_left

/-- Field `A` of a word put together from its fields. -/
theorem aField_word (op : BitVec 8) (A : BitVec 24) (D : BitVec 32) : aField (op ++ A ++ D) = A := by
  rw [aField, BitVec.extractLsb'_append_eq_of_le (by decide)]
  exact BitVec.extractLsb'_append_eq_right

/-- Field `D` of a word put together from its fields. -/
theorem dField_word (op : BitVec 8) (A : BitVec 24) (D : BitVec 32) : dField (op ++ A ++ D) = D :=
  BitVec.extractLsb'_append_eq_right

/-- A word is its three fields put together. -/
theorem word_fields (w : BitVec 64) : opField w ++ aField w ++ dField w = w := by
  apply BitVec.eq_of_getLsbD_eq
  intro i hi
  simp only [opField, aField, dField, BitVec.getLsbD_append, BitVec.getLsbD_extractLsb']
  by_cases h1 : i < 32
  · simp [h1]
  · by_cases h2 : i - 32 < 24
    · simp [h1, h2, show 32 + (i - 32) = i by omega]
    · simp [h1, h2, show i - 32 - 24 < 8 by omega, show 56 + (i - 32 - 24) = i by omega]

/-- What an operation whose unused bits are checked decodes to (R59). -/
theorem ifUnusedZero_ok {w : BitVec 64} {u : Bool} {i j : Instr} (h : ifUnusedZero w u i = .ok j) : u = true ∧ j = i := by
  unfold ifUnusedZero at h
  split at h
  · cases h; exact ⟨by assumption, rfl⟩
  · cases h

end Sys2Proof
end

