-- ==== Sys2Proof/Laws/Memory.lean ====
section
/-! SUPPORT. Laws of byte arrays: every operation keeps the canonical form, a read after a write gives the
byte written, a write leaves every other byte alone. -/

namespace Sys2Proof.Machine

/-- The canonical form holds from any lower bound if it holds from a higher one. -/
theorem Mem.wfFrom_mono {size lo hi : Nat} {m : Mem} (h : Mem.wfFrom size hi m = true) (hle : lo ≤ hi) :
    Mem.wfFrom size lo m = true := by
  cases m with
  | nil => rfl
  | cons c m =>
    simp only [Mem.wfFrom, Bool.and_eq_true, decide_eq_true_eq] at h ⊢
    exact ⟨⟨⟨by omega, h.1.1.2⟩, h.1.2⟩, h.2⟩

theorem Mem.wfFrom_cons {size lo : Nat} {c : Host.Cell} {m : Mem} :
    Mem.wfFrom size lo (c :: m) = true ↔
      lo ≤ c.1 ∧ c.1 < size ∧ c.2 ≠ Mem.unlisted ∧ Mem.wfFrom size (c.1 + 1) m = true := by
  simp only [Mem.wfFrom, Bool.and_eq_true, decide_eq_true_eq, and_assoc]

/-- Below its lower bound an array lists nothing. -/
theorem Mem.read_below {size lo i : Nat} {m : Mem} (h : Mem.wfFrom size lo m = true) (hi : i < lo) :
    Mem.read m i = Mem.unlisted := by
  induction m generalizing lo with
  | nil => rfl
  | cons c m ih =>
    obtain ⟨h1, -, -, h4⟩ := Mem.wfFrom_cons.mp h
    rw [Mem.read, if_neg (by omega), ih h4 (by omega)]

/-- Outside its size an array reads as unlisted. -/
theorem Mem.read_outside {size lo i : Nat} {m : Mem} (h : Mem.wfFrom size lo m = true) (hi : size ≤ i) :
    Mem.read m i = Mem.unlisted := by
  induction m generalizing lo with
  | nil => rfl
  | cons c m ih =>
    obtain ⟨-, h2, -, h4⟩ := Mem.wfFrom_cons.mp h
    rw [Mem.read, if_neg (by omega), ih h4]

theorem Mem.wfFrom_put {size lo i : Nat} {b : Byte} {m : Mem} (hlo : lo ≤ i) (hi : i < size)
    (h : Mem.wfFrom size (i + 1) m = true) : Mem.wfFrom size lo (Mem.put i b m) = true := by
  unfold Mem.put
  split
  · exact Mem.wfFrom_mono h (by omega)
  · exact Mem.wfFrom_cons.mpr ⟨hlo, hi, by assumption, h⟩

theorem Mem.wfFrom_write {size lo i : Nat} {b : Byte} {m : Mem} (h : Mem.wfFrom size lo m = true)
    (hlo : lo ≤ i) (hi : i < size) : Mem.wfFrom size lo (Mem.write m i b) = true := by
  induction m generalizing lo with
  | nil => exact Mem.wfFrom_put hlo hi rfl
  | cons c m ih =>
    obtain ⟨h1, h2, h3, h4⟩ := Mem.wfFrom_cons.mp h
    rw [Mem.write]
    split
    · exact Mem.wfFrom_put hlo hi (Mem.wfFrom_cons.mpr ⟨by omega, h2, h3, h4⟩)
    · split
      · exact Mem.wfFrom_put hlo hi (by rw [‹i = c.1›]; exact h4)
      · exact Mem.wfFrom_cons.mpr ⟨h1, h2, h3, ih h4 (by omega)⟩

/-- A write inside the array keeps its canonical form. -/
theorem Mem.wf_write {size i : Nat} {b : Byte} {m : Mem} (h : Mem.wf size m = true) (hi : i < size) :
    Mem.wf size (Mem.write m i b) = true :=
  Mem.wfFrom_write h (Nat.zero_le i) hi

theorem Mem.read_put_same {size i : Nat} {b : Byte} {m : Mem} (h : Mem.wfFrom size (i + 1) m = true) :
    Mem.read (Mem.put i b m) i = b := by
  unfold Mem.put
  split
  · rw [Mem.read_below h (by omega)]; exact (by assumption : b = Mem.unlisted).symm
  · rw [Mem.read, if_pos rfl]

theorem Mem.read_put_other {i j : Nat} {b : Byte} {m : Mem} (h : j ≠ i) :
    Mem.read (Mem.put i b m) j = Mem.read m j := by
  unfold Mem.put
  split
  · rfl
  · rw [Mem.read, if_neg h]

theorem Mem.read_write_same_from {size lo i : Nat} {b : Byte} {m : Mem} (h : Mem.wfFrom size lo m = true) :
    Mem.read (Mem.write m i b) i = b := by
  induction m generalizing lo with
  | nil => exact Mem.read_put_same (size := size) rfl
  | cons c m ih =>
    obtain ⟨h1, h2, h3, h4⟩ := Mem.wfFrom_cons.mp h
    rw [Mem.write]
    split
    · exact Mem.read_put_same (Mem.wfFrom_cons.mpr ⟨by omega, h2, h3, h4⟩)
    · split
      · exact Mem.read_put_same (by rw [‹i = c.1›]; exact h4)
      · rw [Mem.read, if_neg (by omega), ih h4]

/-- A read after a write of the same offset gives the byte written. -/
theorem Mem.read_write_same {size i : Nat} {b : Byte} {m : Mem} (h : Mem.wf size m = true) :
    Mem.read (Mem.write m i b) i = b :=
  Mem.read_write_same_from h

/-- A write leaves every other offset alone. -/
theorem Mem.read_write_other {i j : Nat} {b : Byte} {m : Mem} (h : j ≠ i) :
    Mem.read (Mem.write m i b) j = Mem.read m j := by
  induction m with
  | nil => exact Mem.read_put_other h
  | cons c m ih =>
    rw [Mem.write]
    split
    · exact Mem.read_put_other h
    · split
      · rw [Mem.read_put_other h, Mem.read, if_neg (by omega)]
      · rw [Mem.read, Mem.read, ih]

theorem Mem.wf_foldl_write {size : Nat} (cells : List Host.Cell) {m : Mem} (h : Mem.wf size m = true) :
    Mem.wf size (cells.foldl (fun m c => if c.1 < size then Mem.write m c.1 c.2 else m) m) = true := by
  induction cells generalizing m with
  | nil => exact h
  | cons c cells ih =>
    rw [List.foldl_cons]
    apply ih
    split
    · exact Mem.wf_write h (by assumption)
    · exact h

/-- An array built from any list of writes is in canonical form. -/
theorem Mem.wf_ofCells (size : Nat) (cells : List Host.Cell) : Mem.wf size (Mem.ofCells size cells) = true :=
  Mem.wf_foldl_write cells rfl

theorem wf_writeSeq {size : Nat} (bs : List Byte) {m : Mem} {i : Nat} (hs : 0 < size) (h : Mem.wf size m = true) :
    Mem.wf size (writeSeq size m i bs) = true := by
  induction bs generalizing m i with
  | nil => exact h
  | cons b bs ih => exact ih (Mem.wf_write h (Nat.mod_lt _ hs))

/-- A multi-byte write keeps the canonical form. -/
theorem wf_arrayWrite {size : Nat} {m : Mem} {i : Nat} (w : Width) (v : BitVec w.bits) (hs : 0 < size)
    (h : Mem.wf size m = true) : Mem.wf size (arrayWrite size m i w v) = true :=
  wf_writeSeq _ hs h

/-- A run of writes leaves an offset alone that none of them reaches. -/
theorem read_writeSeq_other {size j : Nat} (bs : List Byte) {m : Mem} {i : Nat}
    (h : ∀ k, k < bs.length → j ≠ (i + k) % size) : Mem.read (writeSeq size m i bs) j = Mem.read m j := by
  induction bs generalizing m i with
  | nil => rfl
  | cons b bs ih =>
    have h0 := h 0 (by simp)
    rw [writeSeq, ih fun k hk => by have := h (k + 1) (by simpa using hk); rwa [show i + 1 + k = i + (k + 1) by omega]]
    exact Mem.read_write_other (by simpa using h0)

/-- Two byte offsets of one run of at most `size` bytes are distinct. -/
theorem offset_ne {size i k j : Nat} (hkj : k < j) (hj : j < size) : (i + k) % size ≠ (i + j) % size := by
  intro h
  have h1 : (i + k) ≡ (i + j) [MOD size] := h
  have h2 : k ≡ j [MOD size] := Nat.ModEq.add_left_cancel' i h1
  have h3 := Nat.ModEq.eq_of_lt_of_lt h2 (by omega) hj
  omega

/-- A run of writes puts each of its bytes at its own offset. -/
theorem read_writeSeq_same {size : Nat} (bs : List Byte) {m : Mem} {i k : Nat} (hs : bs.length ≤ size)
    (h : Mem.wf size m = true) (hk : k < bs.length) :
    Mem.read (writeSeq size m i bs) ((i + k) % size) = bs[k] := by
  induction bs generalizing m i k with
  | nil => simp at hk
  | cons b bs ih =>
    have hlen : bs.length + 1 ≤ size := by simpa using hs
    have h' : Mem.wf size (Mem.write m (i % size) b) = true := Mem.wf_write h (Nat.mod_lt _ (by omega))
    cases k with
    | zero =>
      rw [writeSeq, read_writeSeq_other bs fun k hk => ?_]
      · simpa using Mem.read_write_same h
      · rw [show i + 1 + k = i + (k + 1) by omega]
        exact offset_ne (by omega) (by omega)
    | succ k =>
      rw [writeSeq, show i + (k + 1) = i + 1 + k by omega]
      simpa using ih (by omega) h' (by simpa using hk)

@[simp] theorem lanes_length (w : Width) (v : BitVec w.bits) : (lanes w v).length = w.bytes := by
  simp [lanes]

@[simp] theorem getElem_lanes (w : Width) (v : BitVec w.bits) (k : Nat) (h : k < (lanes w v).length) :
    (lanes w v)[k] = lane w v k := by
  simp [lanes]

/-- `RamWr` puts byte `k` of the value at offset `(i + k) mod size` (R44). -/
theorem read_arrayWrite_same {size : Nat} {m : Mem} {i k : Nat} (w : Width) (v : BitVec w.bits)
    (hs : w.bytes ≤ size) (h : Mem.wf size m = true) (hk : k < w.bytes) :
    Mem.read (arrayWrite size m i w v) ((i + k) % size) = lane w v k := by
  have := read_writeSeq_same (lanes w v) (m := m) (i := i) (k := k) (by simpa using hs) h (by simpa using hk)
  simpa [arrayWrite] using this

/-- `RamWr` leaves every other offset alone (R44). -/
theorem read_arrayWrite_other {size j : Nat} {m : Mem} {i : Nat} (w : Width) (v : BitVec w.bits)
    (h : ∀ k, k < w.bytes → j ≠ (i + k) % size) : Mem.read (arrayWrite size m i w v) j = Mem.read m j :=
  read_writeSeq_other _ (by simpa using h)

/-- Two neighbouring fields put together are one field. -/
theorem extract_join {w : Nat} (v : BitVec w) (s n m : Nat) : v.extractLsb' (s + n) m ++ v.extractLsb' s n = v.extractLsb' s (m + n) := by
  apply BitVec.eq_of_getLsbD_eq
  intro i hi
  rw [BitVec.getLsbD_append]
  by_cases h : i < n
  · simp [h, hi]
  · simp [h, hi, show i - n < m by omega, show s + n + (i - n) = s + i by omega]

theorem word_lanes (v : BitVec 16) : v.extractLsb' 8 8 ++ v.extractLsb' 0 8 = v :=
  (extract_join v 0 8 8).trans BitVec.extractLsb'_eq_self

theorem long_lanes (v : BitVec 32) :
    v.extractLsb' 24 8 ++ v.extractLsb' 16 8 ++ v.extractLsb' 8 8 ++ v.extractLsb' 0 8 = v := by
  have h1 := extract_join v 16 8 8
  have h2 := extract_join v 8 8 16
  have h3 := extract_join v 0 8 24
  simp only [Nat.reduceAdd] at h1 h2 h3
  rw [h1, h2]
  exact h3.trans BitVec.extractLsb'_eq_self

/-- The bytes of a value, put together, are the value (R43, R62). -/
theorem assemble_lane (w : Width) (v : BitVec w.bits) : assemble w (lane w v) = v := by
  cases w with
  | byte => exact BitVec.extractLsb'_eq_self
  | word => exact word_lanes v
  | long => exact long_lanes v

/-- Two functions that agree on a width's bytes assemble to the same value. -/
theorem assemble_congr (w : Width) {f g : Nat → Byte} (h : ∀ k, k < w.bytes → f k = g k) :
    assemble w f = assemble w g := by
  cases w <;> simp only [assemble]
  · exact h 0 (by decide)
  · rw [h 0 (by decide), h 1 (by decide)]
  · rw [h 0 (by decide), h 1 (by decide), h 2 (by decide), h 3 (by decide)]

end Sys2Proof.Machine
end

