-- ==== Sys2Proof/Laws/State.lean ====
section
/-! SUPPORT. One lemma per field of State per shared update, each true by rfl: no later proof unfolds a
record update. The last lines of each group say which of the three records the update keeps whole. -/

namespace Sys2Proof.Machine

/-! ### emit -/

@[simp] theorem emit_overlay (s : State) (e : Event) : (emit s e).overlay = s.overlay := rfl
@[simp] theorem emit_irqPending (s : State) (e : Event) : (emit s e).irqPending = s.irqPending := rfl
@[simp] theorem emit_irqLevel (s : State) (e : Event) : (emit s e).irqLevel = s.irqLevel := rfl
@[simp] theorem emit_kbdCmdValid (s : State) (e : Event) : (emit s e).kbdCmdValid = s.kbdCmdValid := rfl
@[simp] theorem emit_kbdCmd (s : State) (e : Event) : (emit s e).kbdCmd = s.kbdCmd := rfl
@[simp] theorem emit_kbdCmdTime (s : State) (e : Event) : (emit s e).kbdCmdTime = s.kbdCmdTime := rfl
@[simp] theorem emit_kbdEvtValid (s : State) (e : Event) : (emit s e).kbdEvtValid = s.kbdEvtValid := rfl
@[simp] theorem emit_kbdEvt (s : State) (e : Event) : (emit s e).kbdEvt = s.kbdEvt := rfl
@[simp] theorem emit_mouseButton (s : State) (e : Event) : (emit s e).mouseButton = s.mouseButton := rfl
@[simp] theorem emit_timeUs (s : State) (e : Event) : (emit s e).timeUs = s.timeUs := rfl
@[simp] theorem emit_halted (s : State) (e : Event) : (emit s e).halted = s.halted := rfl
@[simp] theorem emit_ram (s : State) (e : Event) : (emit s e).ram = s.ram := rfl
@[simp] theorem emit_rom (s : State) (e : Event) : (emit s e).rom = s.rom := rfl
@[simp] theorem emit_cfg (s : State) (e : Event) : (emit s e).cfg = s.cfg := rfl
@[simp] theorem emit_drives (s : State) (e : Event) : (emit s e).drives = s.drives := rfl
@[simp] theorem emit_issued (s : State) (e : Event) : (emit s e).issued = s.issued := rfl
@[simp] theorem emit_envDev (s : State) (e : Event) : (emit s e).envDev = s.envDev := rfl
@[simp] theorem emit_envDisc (s : State) (e : Event) : (emit s e).envDisc = s.envDisc := rfl
@[simp] theorem emit_out (s : State) (e : Event) : (emit s e).out = s.out ++ [e] := rfl
@[simp] theorem emit_ret (s : State) (e : Event) : (emit s e).ret = s.ret := rfl
@[simp] theorem emit_draws (s : State) (e : Event) : (emit s e).draws = s.draws := rfl
@[simp] theorem emit_block (s : State) (e : Event) : (emit s e).block = s.block := rfl
@[simp] theorem emit_environment (s : State) (e : Event) : (emit s e).environment = s.environment := rfl

/-! ### logWarning -/

@[simp] theorem logWarning_overlay (s : State) (w : Warning) : (logWarning s w).overlay = s.overlay := rfl
@[simp] theorem logWarning_irqPending (s : State) (w : Warning) : (logWarning s w).irqPending = s.irqPending := rfl
@[simp] theorem logWarning_irqLevel (s : State) (w : Warning) : (logWarning s w).irqLevel = s.irqLevel := rfl
@[simp] theorem logWarning_kbdCmdValid (s : State) (w : Warning) : (logWarning s w).kbdCmdValid = s.kbdCmdValid := rfl
@[simp] theorem logWarning_kbdCmd (s : State) (w : Warning) : (logWarning s w).kbdCmd = s.kbdCmd := rfl
@[simp] theorem logWarning_kbdCmdTime (s : State) (w : Warning) : (logWarning s w).kbdCmdTime = s.kbdCmdTime := rfl
@[simp] theorem logWarning_kbdEvtValid (s : State) (w : Warning) : (logWarning s w).kbdEvtValid = s.kbdEvtValid := rfl
@[simp] theorem logWarning_kbdEvt (s : State) (w : Warning) : (logWarning s w).kbdEvt = s.kbdEvt := rfl
@[simp] theorem logWarning_mouseButton (s : State) (w : Warning) : (logWarning s w).mouseButton = s.mouseButton := rfl
@[simp] theorem logWarning_timeUs (s : State) (w : Warning) : (logWarning s w).timeUs = s.timeUs := rfl
@[simp] theorem logWarning_halted (s : State) (w : Warning) : (logWarning s w).halted = s.halted := rfl
@[simp] theorem logWarning_ram (s : State) (w : Warning) : (logWarning s w).ram = s.ram := rfl
@[simp] theorem logWarning_rom (s : State) (w : Warning) : (logWarning s w).rom = s.rom := rfl
@[simp] theorem logWarning_cfg (s : State) (w : Warning) : (logWarning s w).cfg = s.cfg := rfl
@[simp] theorem logWarning_drives (s : State) (w : Warning) : (logWarning s w).drives = s.drives := rfl
@[simp] theorem logWarning_issued (s : State) (w : Warning) : (logWarning s w).issued = s.issued := rfl
@[simp] theorem logWarning_envDev (s : State) (w : Warning) : (logWarning s w).envDev = s.envDev := rfl
@[simp] theorem logWarning_envDisc (s : State) (w : Warning) : (logWarning s w).envDisc = s.envDisc := rfl
@[simp] theorem logWarning_out (s : State) (w : Warning) : (logWarning s w).out = s.out ++ [.log w] := rfl
@[simp] theorem logWarning_ret (s : State) (w : Warning) : (logWarning s w).ret = s.ret := rfl
@[simp] theorem logWarning_draws (s : State) (w : Warning) : (logWarning s w).draws = s.draws := rfl
@[simp] theorem logWarning_block (s : State) (w : Warning) : (logWarning s w).block = s.block := rfl
@[simp] theorem logWarning_environment (s : State) (w : Warning) : (logWarning s w).environment = s.environment := rfl

/-! ### returns -/

@[simp] theorem returns_overlay (s : State) (v : RetVal) : (returns s v).overlay = s.overlay := rfl
@[simp] theorem returns_irqPending (s : State) (v : RetVal) : (returns s v).irqPending = s.irqPending := rfl
@[simp] theorem returns_irqLevel (s : State) (v : RetVal) : (returns s v).irqLevel = s.irqLevel := rfl
@[simp] theorem returns_kbdCmdValid (s : State) (v : RetVal) : (returns s v).kbdCmdValid = s.kbdCmdValid := rfl
@[simp] theorem returns_kbdCmd (s : State) (v : RetVal) : (returns s v).kbdCmd = s.kbdCmd := rfl
@[simp] theorem returns_kbdCmdTime (s : State) (v : RetVal) : (returns s v).kbdCmdTime = s.kbdCmdTime := rfl
@[simp] theorem returns_kbdEvtValid (s : State) (v : RetVal) : (returns s v).kbdEvtValid = s.kbdEvtValid := rfl
@[simp] theorem returns_kbdEvt (s : State) (v : RetVal) : (returns s v).kbdEvt = s.kbdEvt := rfl
@[simp] theorem returns_mouseButton (s : State) (v : RetVal) : (returns s v).mouseButton = s.mouseButton := rfl
@[simp] theorem returns_timeUs (s : State) (v : RetVal) : (returns s v).timeUs = s.timeUs := rfl
@[simp] theorem returns_halted (s : State) (v : RetVal) : (returns s v).halted = s.halted := rfl
@[simp] theorem returns_ram (s : State) (v : RetVal) : (returns s v).ram = s.ram := rfl
@[simp] theorem returns_rom (s : State) (v : RetVal) : (returns s v).rom = s.rom := rfl
@[simp] theorem returns_cfg (s : State) (v : RetVal) : (returns s v).cfg = s.cfg := rfl
@[simp] theorem returns_drives (s : State) (v : RetVal) : (returns s v).drives = s.drives := rfl
@[simp] theorem returns_issued (s : State) (v : RetVal) : (returns s v).issued = s.issued := rfl
@[simp] theorem returns_envDev (s : State) (v : RetVal) : (returns s v).envDev = s.envDev := rfl
@[simp] theorem returns_envDisc (s : State) (v : RetVal) : (returns s v).envDisc = s.envDisc := rfl
@[simp] theorem returns_out (s : State) (v : RetVal) : (returns s v).out = s.out := rfl
@[simp] theorem returns_ret (s : State) (v : RetVal) : (returns s v).ret = some v := rfl
@[simp] theorem returns_draws (s : State) (v : RetVal) : (returns s v).draws = s.draws := rfl
@[simp] theorem returns_block (s : State) (v : RetVal) : (returns s v).block = s.block := rfl
@[simp] theorem returns_environment (s : State) (v : RetVal) : (returns s v).environment = s.environment := rfl

/-! ### beginOp -/

@[simp] theorem beginOp_overlay (s : State) : (beginOp s).overlay = s.overlay := rfl
@[simp] theorem beginOp_irqPending (s : State) : (beginOp s).irqPending = s.irqPending := rfl
@[simp] theorem beginOp_irqLevel (s : State) : (beginOp s).irqLevel = s.irqLevel := rfl
@[simp] theorem beginOp_kbdCmdValid (s : State) : (beginOp s).kbdCmdValid = s.kbdCmdValid := rfl
@[simp] theorem beginOp_kbdCmd (s : State) : (beginOp s).kbdCmd = s.kbdCmd := rfl
@[simp] theorem beginOp_kbdCmdTime (s : State) : (beginOp s).kbdCmdTime = s.kbdCmdTime := rfl
@[simp] theorem beginOp_kbdEvtValid (s : State) : (beginOp s).kbdEvtValid = s.kbdEvtValid := rfl
@[simp] theorem beginOp_kbdEvt (s : State) : (beginOp s).kbdEvt = s.kbdEvt := rfl
@[simp] theorem beginOp_mouseButton (s : State) : (beginOp s).mouseButton = s.mouseButton := rfl
@[simp] theorem beginOp_timeUs (s : State) : (beginOp s).timeUs = s.timeUs := rfl
@[simp] theorem beginOp_halted (s : State) : (beginOp s).halted = s.halted := rfl
@[simp] theorem beginOp_ram (s : State) : (beginOp s).ram = s.ram := rfl
@[simp] theorem beginOp_rom (s : State) : (beginOp s).rom = s.rom := rfl
@[simp] theorem beginOp_cfg (s : State) : (beginOp s).cfg = s.cfg := rfl
@[simp] theorem beginOp_drives (s : State) : (beginOp s).drives = s.drives := rfl
@[simp] theorem beginOp_issued (s : State) : (beginOp s).issued = s.issued := rfl
@[simp] theorem beginOp_envDev (s : State) : (beginOp s).envDev = s.envDev := rfl
@[simp] theorem beginOp_envDisc (s : State) : (beginOp s).envDisc = s.envDisc := rfl
@[simp] theorem beginOp_out (s : State) : (beginOp s).out = [] := rfl
@[simp] theorem beginOp_ret (s : State) : (beginOp s).ret = none := rfl
@[simp] theorem beginOp_draws (s : State) : (beginOp s).draws = s.draws := rfl
@[simp] theorem beginOp_block (s : State) : (beginOp s).block = s.block := rfl
@[simp] theorem beginOp_environment (s : State) : (beginOp s).environment = s.environment := rfl

/-! ### raiseFatal -/

@[simp] theorem raiseFatal_overlay (s : State) (f : FatalInfo) : (raiseFatal s f).overlay = s.overlay := rfl
@[simp] theorem raiseFatal_irqPending (s : State) (f : FatalInfo) : (raiseFatal s f).irqPending = s.irqPending := rfl
@[simp] theorem raiseFatal_irqLevel (s : State) (f : FatalInfo) : (raiseFatal s f).irqLevel = s.irqLevel := rfl
@[simp] theorem raiseFatal_kbdCmdValid (s : State) (f : FatalInfo) : (raiseFatal s f).kbdCmdValid = s.kbdCmdValid := rfl
@[simp] theorem raiseFatal_kbdCmd (s : State) (f : FatalInfo) : (raiseFatal s f).kbdCmd = s.kbdCmd := rfl
@[simp] theorem raiseFatal_kbdCmdTime (s : State) (f : FatalInfo) : (raiseFatal s f).kbdCmdTime = s.kbdCmdTime := rfl
@[simp] theorem raiseFatal_kbdEvtValid (s : State) (f : FatalInfo) : (raiseFatal s f).kbdEvtValid = s.kbdEvtValid := rfl
@[simp] theorem raiseFatal_kbdEvt (s : State) (f : FatalInfo) : (raiseFatal s f).kbdEvt = s.kbdEvt := rfl
@[simp] theorem raiseFatal_mouseButton (s : State) (f : FatalInfo) : (raiseFatal s f).mouseButton = s.mouseButton := rfl
@[simp] theorem raiseFatal_timeUs (s : State) (f : FatalInfo) : (raiseFatal s f).timeUs = s.timeUs := rfl
@[simp] theorem raiseFatal_halted (s : State) (f : FatalInfo) : (raiseFatal s f).halted = true := rfl
@[simp] theorem raiseFatal_ram (s : State) (f : FatalInfo) : (raiseFatal s f).ram = s.ram := rfl
@[simp] theorem raiseFatal_rom (s : State) (f : FatalInfo) : (raiseFatal s f).rom = s.rom := rfl
@[simp] theorem raiseFatal_cfg (s : State) (f : FatalInfo) : (raiseFatal s f).cfg = s.cfg := rfl
@[simp] theorem raiseFatal_drives (s : State) (f : FatalInfo) : (raiseFatal s f).drives = s.drives := rfl
@[simp] theorem raiseFatal_issued (s : State) (f : FatalInfo) : (raiseFatal s f).issued = s.issued := rfl
@[simp] theorem raiseFatal_envDev (s : State) (f : FatalInfo) : (raiseFatal s f).envDev = s.envDev := rfl
@[simp] theorem raiseFatal_envDisc (s : State) (f : FatalInfo) : (raiseFatal s f).envDisc = s.envDisc := rfl
@[simp] theorem raiseFatal_out (s : State) (f : FatalInfo) : (raiseFatal s f).out = s.out ++ [.fatal f] := rfl
@[simp] theorem raiseFatal_ret (s : State) (f : FatalInfo) : (raiseFatal s f).ret = s.ret := rfl
@[simp] theorem raiseFatal_draws (s : State) (f : FatalInfo) : (raiseFatal s f).draws = s.draws := rfl
@[simp] theorem raiseFatal_environment (s : State) (f : FatalInfo) : (raiseFatal s f).environment = s.environment := rfl

/-! ### ramWrite -/

@[simp] theorem ramWrite_overlay (s : State) (i : Nat) (w : Width) (v : BitVec w.bits) : (ramWrite s i w v).overlay = s.overlay := rfl
@[simp] theorem ramWrite_irqPending (s : State) (i : Nat) (w : Width) (v : BitVec w.bits) : (ramWrite s i w v).irqPending = s.irqPending := rfl
@[simp] theorem ramWrite_irqLevel (s : State) (i : Nat) (w : Width) (v : BitVec w.bits) : (ramWrite s i w v).irqLevel = s.irqLevel := rfl
@[simp] theorem ramWrite_kbdCmdValid (s : State) (i : Nat) (w : Width) (v : BitVec w.bits) : (ramWrite s i w v).kbdCmdValid = s.kbdCmdValid := rfl
@[simp] theorem ramWrite_kbdCmd (s : State) (i : Nat) (w : Width) (v : BitVec w.bits) : (ramWrite s i w v).kbdCmd = s.kbdCmd := rfl
@[simp] theorem ramWrite_kbdCmdTime (s : State) (i : Nat) (w : Width) (v : BitVec w.bits) : (ramWrite s i w v).kbdCmdTime = s.kbdCmdTime := rfl
@[simp] theorem ramWrite_kbdEvtValid (s : State) (i : Nat) (w : Width) (v : BitVec w.bits) : (ramWrite s i w v).kbdEvtValid = s.kbdEvtValid := rfl
@[simp] theorem ramWrite_kbdEvt (s : State) (i : Nat) (w : Width) (v : BitVec w.bits) : (ramWrite s i w v).kbdEvt = s.kbdEvt := rfl
@[simp] theorem ramWrite_mouseButton (s : State) (i : Nat) (w : Width) (v : BitVec w.bits) : (ramWrite s i w v).mouseButton = s.mouseButton := rfl
@[simp] theorem ramWrite_timeUs (s : State) (i : Nat) (w : Width) (v : BitVec w.bits) : (ramWrite s i w v).timeUs = s.timeUs := rfl
@[simp] theorem ramWrite_halted (s : State) (i : Nat) (w : Width) (v : BitVec w.bits) : (ramWrite s i w v).halted = s.halted := rfl
@[simp] theorem ramWrite_ram (s : State) (i : Nat) (w : Width) (v : BitVec w.bits) : (ramWrite s i w v).ram = arrayWrite s.cfg.ramSize s.ram i w v := rfl
@[simp] theorem ramWrite_rom (s : State) (i : Nat) (w : Width) (v : BitVec w.bits) : (ramWrite s i w v).rom = s.rom := rfl
@[simp] theorem ramWrite_cfg (s : State) (i : Nat) (w : Width) (v : BitVec w.bits) : (ramWrite s i w v).cfg = s.cfg := rfl
@[simp] theorem ramWrite_drives (s : State) (i : Nat) (w : Width) (v : BitVec w.bits) : (ramWrite s i w v).drives = s.drives := rfl
@[simp] theorem ramWrite_issued (s : State) (i : Nat) (w : Width) (v : BitVec w.bits) : (ramWrite s i w v).issued = s.issued := rfl
@[simp] theorem ramWrite_envDev (s : State) (i : Nat) (w : Width) (v : BitVec w.bits) : (ramWrite s i w v).envDev = s.envDev := rfl
@[simp] theorem ramWrite_envDisc (s : State) (i : Nat) (w : Width) (v : BitVec w.bits) : (ramWrite s i w v).envDisc = s.envDisc := rfl
@[simp] theorem ramWrite_out (s : State) (i : Nat) (w : Width) (v : BitVec w.bits) : (ramWrite s i w v).out = s.out := rfl
@[simp] theorem ramWrite_ret (s : State) (i : Nat) (w : Width) (v : BitVec w.bits) : (ramWrite s i w v).ret = s.ret := rfl
@[simp] theorem ramWrite_draws (s : State) (i : Nat) (w : Width) (v : BitVec w.bits) : (ramWrite s i w v).draws = s.draws := rfl
@[simp] theorem ramWrite_environment (s : State) (i : Nat) (w : Width) (v : BitVec w.bits) : (ramWrite s i w v).environment = s.environment := rfl
@[simp] theorem ramWrite_ports (s : State) (i : Nat) (w : Width) (v : BitVec w.bits) : (ramWrite s i w v).ports = s.ports := rfl

/-! ### finishRead -/

@[simp] theorem finishRead_overlay (w : Width) (r : ReadResult w) : (finishRead w r).overlay = r.1.overlay := rfl
@[simp] theorem finishRead_irqPending (w : Width) (r : ReadResult w) : (finishRead w r).irqPending = r.1.irqPending := rfl
@[simp] theorem finishRead_irqLevel (w : Width) (r : ReadResult w) : (finishRead w r).irqLevel = r.1.irqLevel := rfl
@[simp] theorem finishRead_kbdCmdValid (w : Width) (r : ReadResult w) : (finishRead w r).kbdCmdValid = r.1.kbdCmdValid := rfl
@[simp] theorem finishRead_kbdCmd (w : Width) (r : ReadResult w) : (finishRead w r).kbdCmd = r.1.kbdCmd := rfl
@[simp] theorem finishRead_kbdCmdTime (w : Width) (r : ReadResult w) : (finishRead w r).kbdCmdTime = r.1.kbdCmdTime := rfl
@[simp] theorem finishRead_kbdEvtValid (w : Width) (r : ReadResult w) : (finishRead w r).kbdEvtValid = r.1.kbdEvtValid := rfl
@[simp] theorem finishRead_kbdEvt (w : Width) (r : ReadResult w) : (finishRead w r).kbdEvt = r.1.kbdEvt := rfl
@[simp] theorem finishRead_mouseButton (w : Width) (r : ReadResult w) : (finishRead w r).mouseButton = r.1.mouseButton := rfl
@[simp] theorem finishRead_timeUs (w : Width) (r : ReadResult w) : (finishRead w r).timeUs = r.1.timeUs := rfl
@[simp] theorem finishRead_halted (w : Width) (r : ReadResult w) : (finishRead w r).halted = r.1.halted := rfl
@[simp] theorem finishRead_ram (w : Width) (r : ReadResult w) : (finishRead w r).ram = r.1.ram := rfl
@[simp] theorem finishRead_rom (w : Width) (r : ReadResult w) : (finishRead w r).rom = r.1.rom := rfl
@[simp] theorem finishRead_cfg (w : Width) (r : ReadResult w) : (finishRead w r).cfg = r.1.cfg := rfl
@[simp] theorem finishRead_drives (w : Width) (r : ReadResult w) : (finishRead w r).drives = r.1.drives := rfl
@[simp] theorem finishRead_issued (w : Width) (r : ReadResult w) : (finishRead w r).issued = r.1.issued := rfl
@[simp] theorem finishRead_envDev (w : Width) (r : ReadResult w) : (finishRead w r).envDev = r.1.envDev := rfl
@[simp] theorem finishRead_envDisc (w : Width) (r : ReadResult w) : (finishRead w r).envDisc = r.1.envDisc := rfl
@[simp] theorem finishRead_out (w : Width) (r : ReadResult w) : (finishRead w r).out = r.1.out := rfl
@[simp] theorem finishRead_ret (w : Width) (r : ReadResult w) : (finishRead w r).ret = r.2.map (retOf w) := rfl
@[simp] theorem finishRead_draws (w : Width) (r : ReadResult w) : (finishRead w r).draws = r.1.draws := rfl
@[simp] theorem finishRead_block (w : Width) (r : ReadResult w) : (finishRead w r).block = r.1.block := rfl
@[simp] theorem finishRead_environment (w : Width) (r : ReadResult w) : (finishRead w r).environment = r.1.environment := rfl

end Sys2Proof.Machine
end

