-- ==== Sys2Proof/Laws/Ops.lean ====
section
/-! SUPPORT. One lemma for each shared operation that says once what it can do; later proofs cite these
instead of unfolding the operation. -/

namespace Sys2Proof.Machine

/-- What an operation that answers a next state did: it was not halted, and its effect answered it. -/
theorem running_next {s t : State} {f : State → Host.Outcome State Fault Refusal} (h : running s f = .next t) :
    s.halted = false ∧ f (beginOp s) = .next t := by
  unfold running at h
  split at h
  · cases h
  · exact ⟨by simpa using ‹¬ s.halted = true›, h⟩

theorem running_of_running {s : State} {f : State → Host.Outcome State Fault Refusal} (h : s.halted = false) :
    running s f = f (beginOp s) := by
  simp [running, h]

theorem running_of_halted {s : State} {f : State → Host.Outcome State Fault Refusal} (h : s.halted = true) :
    running s f = .fault .halted := by
  simp [running, h]

/-- A call of the I/O chip changes nothing but the outputs, the environment's answer and the draws. -/
theorem iochipRead_frame (s : State) (a : Nat) : (iochipRead s a).1 =
    { s with out := (iochipRead s a).1.out, envDev := (iochipRead s a).1.envDev, draws := (iochipRead s a).1.draws } := by
  simp only [iochipRead]
  split <;> rfl

theorem iochipWrite_frame (s : State) (a : Nat) (v : Byte) :
    iochipWrite s a v = { s with out := (iochipWrite s a v).out } := by
  simp only [iochipWrite]
  split <;> rfl

/-- A hook write changes nothing but RAM, the drives, `halted`, the outputs, the environment's answer and
the draws. -/
theorem discHook_frame (s : State) (v : Byte) : discHook s v =
    { s with ram := (discHook s v).ram, drives := (discHook s v).drives, halted := (discHook s v).halted,
             out := (discHook s v).out, envDisc := (discHook s v).envDisc, draws := (discHook s v).draws } := by
  simp only [discHook]
  split <;> rfl

/-- A data read changes nothing but `halted`, the outputs, the environment's answer and the draws. -/
theorem memRead_frame (s : State) (A : Nat) (w : Width) : (memRead s A w).1 =
    { s with halted := (memRead s A w).1.halted, out := (memRead s A w).1.out,
             envDev := (memRead s A w).1.envDev, draws := (memRead s A w).1.draws } := by
  simp only [memRead]
  split
  · rfl
  · rfl
  · cases w
    · simp only [byteOnlyRead, iochipRead]
      split <;> rfl
    · rfl
    · rfl
  · cases w <;> rfl
  · split <;> rfl
  · rfl

/-- A fetch changes nothing but `halted` and the outputs. -/
theorem fetchWord_frame (s : State) (A : Nat) : (fetchWord s A).1 =
    { s with halted := (fetchWord s A).1.halted, out := (fetchWord s A).1.out } := by
  simp only [fetchWord]
  split
  · rfl
  · rfl
  · rfl
  · rfl
  · rfl
  · split <;> rfl
  · rfl

/-- A data write changes nothing but RAM, the drives, `halted`, the outputs, the environment's answer and
the draws. -/
theorem memWrite_frame (s : State) (A : Nat) (w : Width) (v : BitVec w.bits) : memWrite s A w v =
    { s with ram := (memWrite s A w v).ram, drives := (memWrite s A w v).drives,
             halted := (memWrite s A w v).halted, out := (memWrite s A w v).out,
             envDisc := (memWrite s A w v).envDisc, draws := (memWrite s A w v).draws } := by
  simp only [memWrite]
  split
  · rfl
  · split <;> rfl
  · cases w
    · simp only [byteOnlyWrite, iochipWrite]
      split <;> rfl
    · rfl
    · rfl
  · cases w
    · exact discHook_frame s v
    · rfl
    · rfl
  · split <;> rfl
  · rfl

/-- A keyboard dispatch changes nothing but the event slot's valid bit and the outputs. -/
theorem kbdDispatch_frame (s : State) (c : Byte) : kbdDispatch s c =
    { s with kbdEvtValid := (kbdDispatch s c).kbdEvtValid, out := (kbdDispatch s c).out } := by
  simp only [kbdDispatch]
  split
  · rfl
  · split
    · split <;> rfl
    · split <;> rfl

/-- Mouse motion changes nothing but RAM. -/
theorem mouseMotion_frame (s : State) (dx dy : BitVec 16) :
    mouseMotion s dx dy = { s with ram := (mouseMotion s dx dy).ram } := rfl

/-- The disc handler leaves RAM in canonical form (R56). -/
theorem discHook_wf (s : State) (v : Byte) : Mem.wf s.cfg.ramSize (discHook s v).ram = true := by
  simp only [discHook]
  split <;> exact Mem.wf_ofCells _ _

theorem havocDrives_length (draw k : Nat) (ds : List (Option Drive)) :
    (havocDrives draw k ds).length = ds.length := by
  induction ds generalizing k with
  | nil => rfl
  | cons d ds ih => simp [havocDrives, ih]

/-- An absent slot stays absent and a present one present (R28). -/
theorem havocDrives_none (draw k j : Nat) (ds : List (Option Drive)) :
    (havocDrives draw k ds)[j]? = some none ↔ ds[j]? = some none := by
  induction ds generalizing k j with
  | nil => rfl
  | cons d ds ih =>
    cases j with
    | zero => cases d <;> simp [havocDrives, havocDrive]
    | succ j => simpa [havocDrives] using ih (k + 1) j

/-- The disc handler leaves every drive buffer in canonical form. -/
theorem havocDrives_fit (c : Config) (draw k : Nat) (ds : List (Option Drive)) (h : drivesFit c ds = true) :
    drivesFit c (havocDrives draw k ds) = true := by
  simp only [drivesFit, Bool.and_eq_true, decide_eq_true_eq, havocDrives_length] at h ⊢
  refine ⟨h.1, ?_⟩
  clear h
  induction ds generalizing k with
  | nil => rfl
  | cons d ds ih =>
    simp only [havocDrives, List.all_cons, Bool.and_eq_true]
    refine ⟨?_, ih (k + 1)⟩
    cases d with
    | none => rfl
    | some d => exact Mem.wf_ofCells _ _

/-- A data write keeps RAM in canonical form. -/
theorem memWrite_wf (s : State) (A : Nat) (w : Width) (v : BitVec w.bits) (hs : 0 < s.cfg.ramSize)
    (h : Mem.wf s.cfg.ramSize s.ram = true) : Mem.wf s.cfg.ramSize (memWrite s A w v).ram = true := by
  simp only [memWrite]
  split
  · exact wf_arrayWrite w v hs h
  · split <;> exact h
  · cases w
    · rw [byteOnlyWrite, iochipWrite_frame]; exact h
    · exact h
    · exact h
  · cases w
    · exact discHook_wf s v
    · exact h
    · exact h
  · split <;> exact h
  · exact h

/-- A data write leaves the drives as they are or as the disc handler left them. -/
theorem memWrite_drives (s : State) (A : Nat) (w : Width) (v : BitVec w.bits) :
    (memWrite s A w v).drives = s.drives ∨ (memWrite s A w v).drives = havocDrives s.draws 0 s.drives := by
  simp only [memWrite]
  split
  · exact .inl rfl
  · split <;> exact .inl rfl
  · cases w
    · rw [byteOnlyWrite, iochipWrite_frame]; exact .inl rfl
    · exact .inl rfl
    · exact .inl rfl
  · cases w
    · right
      change (discHook s v).drives = _
      simp only [discHook]
      split <;> rfl
    · exact .inl rfl
    · exact .inl rfl
  · split <;> exact .inl rfl
  · exact .inl rfl

/-- What a fetched step carries: only the list of issued entries, the environment's answers and the
outputs differ from the state before. -/
theorem nextIssue_frame {s t : State} {i : Instr} (h : nextIssue s = .run i t) :
    t = { s with issued := t.issued } := by
  unfold nextIssue at h
  split at h
  · cases h
  · cases h
  · cases h
  · cases h; rfl
  · split at h
    · split at h <;> cases h; rfl
    · cases h

/-- The same for a step that runs no operation. -/
theorem nextIssue_quiet {s t : State} (h : nextIssue s = .idle t ∨ nextIssue s = .environment t) :
    t = { s with issued := t.issued, envDev := t.envDev, envDisc := t.envDisc, out := [], ret := none } := by
  unfold nextIssue at h
  split at h
  · obtain h | h := h <;> cases h; rfl
  · obtain h | h := h <;> cases h; rfl
  · obtain h | h := h <;> cases h; rfl
  · obtain h | h := h <;> cases h
  · split at h
    · split at h <;> obtain h | h := h <;> cases h
    · obtain h | h := h <;> cases h

/-- A power of two, as R8 asks. -/
theorem isPowerOfTwo_iff (n : Nat) : isPowerOfTwo n = true ↔ ∃ k, n = 2 ^ k := by
  simp only [isPowerOfTwo, beq_iff_eq]
  exact ⟨fun h => ⟨_, h⟩, fun ⟨k, hk⟩ => by rw [hk, Nat.log2_two_pow]⟩

/-- Two ranges are disjoint exactly when no address is in both. -/
theorem Range.disjoint_iff (r q : Range) :
    Range.disjoint r q = true ↔ ∀ a, ¬ ((r.1 ≤ a ∧ a < r.1 + r.2) ∧ (q.1 ≤ a ∧ a < q.1 + q.2)) := by
  simp only [Range.disjoint, Bool.or_eq_true, decide_eq_true_eq]
  constructor
  · intro h a; omega
  · intro h
    have h1 := h r.1
    have h2 := h q.1
    omega

theorem pairwiseDisjoint_iff (rs : List Range) : pairwiseDisjoint rs = true ↔
    rs.Pairwise (fun r q => ∀ a, ¬ ((r.1 ≤ a ∧ a < r.1 + r.2) ∧ (q.1 ≤ a ∧ a < q.1 + q.2))) := by
  induction rs with
  | nil => simp [pairwiseDisjoint]
  | cons r rs ih =>
    simp only [pairwiseDisjoint, Bool.and_eq_true, List.all_eq_true, List.pairwise_cons, ih, Range.disjoint_iff]

/-- An address lies in a window exactly when it is at or above the base and below the end. -/
theorem inWindow_iff (base size a : Nat) : inWindow base size a = true ↔ base ≤ a ∧ a < base + size := by
  simp [inWindow]

/-- The sizes a valid configuration has. -/
theorem Config.valid_sizes {c : Config} (h : c.valid = true) : 4 ≤ c.ramSize ∧ 4 ≤ c.romSize := by
  simp only [Config.valid, List.all_cons, id, Bool.and_eq_true, decide_eq_true_eq] at h
  exact ⟨h.2.2.2.2.2.1, h.2.2.2.2.2.2.2.1⟩

/-- What a read returns has the value's type. -/
theorem retOf_cases (w : Width) (v : BitVec w.bits) :
    (∃ x, retOf w v = .byte x) ∨ (∃ x, retOf w v = .word x) ∨ ∃ x, retOf w v = .long x := by
  cases w
  · exact .inl ⟨v, rfl⟩
  · exact .inr (.inl ⟨v, rfl⟩)
  · exact .inr (.inr ⟨v, rfl⟩)

theorem long_lane0 (a b c d : BitVec 8) : (a ++ b ++ c ++ d).extractLsb' 24 8 = a := by
  rw [BitVec.extractLsb'_append_eq_of_le (by decide), BitVec.extractLsb'_append_eq_of_le (by decide)]
  exact BitVec.extractLsb'_append_eq_left

theorem long_lane1 (a b c d : BitVec 8) : (a ++ b ++ c ++ d).extractLsb' 16 8 = b := by
  rw [BitVec.extractLsb'_append_eq_of_le (by decide), BitVec.extractLsb'_append_eq_of_le (by decide)]
  exact BitVec.extractLsb'_append_eq_right

theorem long_lane2 (a b c d : BitVec 8) : (a ++ b ++ c ++ d).extractLsb' 8 8 = c := by
  rw [BitVec.extractLsb'_append_eq_of_le (by decide)]
  exact BitVec.extractLsb'_append_eq_right

/-- A value put together from bytes has those bytes (R44). -/
theorem lane_assemble (w : Width) (f : Nat → Byte) (k : Nat) (hk : k < w.bytes) : lane w (assemble w f) k = f k := by
  cases w with
  | byte =>
    obtain rfl : k = 0 := by simp [Width.bytes] at hk; omega
    exact BitVec.extractLsb'_eq_self
  | word =>
    have : k = 0 ∨ k = 1 := by simp [Width.bytes] at hk; omega
    rcases this with rfl | rfl
    · exact BitVec.extractLsb'_append_eq_left
    · exact BitVec.extractLsb'_append_eq_right
  | long =>
    have : k = 0 ∨ k = 1 ∨ k = 2 ∨ k = 3 := by simp [Width.bytes] at hk; omega
    rcases this with rfl | rfl | rfl | rfl
    · exact long_lane0 _ _ _ _
    · exact long_lane1 _ _ _ _
    · exact long_lane2 _ _ _ _
    · exact BitVec.extractLsb'_append_eq_right

end Sys2Proof.Machine
end

