-- ==== Sys2Proof/Laws/Exec.lean ====
section
/-! SUPPORT. Laws of the operations as a whole: what an operation that answers a next state did, the events
each bus operation can emit, and the laws of the interrupt mask. -/

namespace Sys2Proof.Machine

/-- The data reads are one operation by width. -/
theorem exec_readOp (w : Width) (A : Nat) (s : State) :
    exec (readOp w A) s = running s fun s => .next (finishRead w (memRead s A w)) := by
  cases w <;> rfl

/-- The data writes are one operation by width. -/
theorem exec_writeOp (w : Width) (A : Nat) (v : BitVec w.bits) (s : State) :
    exec (writeOp w A v) s = running s fun s => .next (memWrite s A w v) := by
  cases w <;> rfl

/-- An induction over operations: what holds of the effect of each operation from a running state holds
of every operation that answers a next state. -/
theorem exec_induction {P : Instr → State → State → Prop}
    (read : ∀ s w A, s.halted = false → P (readOp w A) s (finishRead w (memRead (beginOp s) A w)))
    (write : ∀ s w A v, s.halted = false → P (writeOp w A v) s (memWrite (beginOp s) A w v))
    (fetch : ∀ s A, s.halted = false → P (.ifW A) s (finishRead .word (fetchWord (beginOp s) A)))
    (motion : ∀ s dx dy b, s.halted = false → P (.mouseMove dx dy b) s
      (if dx ≠ 0 ∨ dy ≠ 0 then mouseMotion { beginOp s with mouseButton := b } dx dy
       else { beginOp s with mouseButton := b }))
    (tick : ∀ s x, s.halted = false → s.timeUs.toNat ≤ x.toNat → P (.tick x) s
      (if s.kbdCmdValid && dwellElapsed s.cfg.kbdDwell x s.kbdCmdTime then
         { kbdDispatch { beginOp s with timeUs := x } s.kbdCmd with kbdCmdValid := false }
       else { beginOp s with timeUs := x }))
    (ack : ∀ s l, s.halted = false → P (.iack l) s (returns (beginOp s) (.ack (s.cfg.autovector.apply l))))
    (reset : ∀ s, s.halted = false → P .reset s { beginOp s with overlay := true })
    (raise : ∀ s x, s.halted = false → P (.irqRaise x) s
      (if setPending s.irqPending x ≠ s.irqPending ∧ s.irqLevel.toNat < x.toNat then
         emit { beginOp s with irqPending := setPending s.irqPending x, irqLevel := x } (.irqOut x)
       else { beginOp s with irqPending := setPending s.irqPending x }))
    (lower : ∀ s x, s.halted = false → P (.irqLower x) s
      (emit { beginOp s with
        irqPending := clearPending s.irqPending x
        irqLevel := highestPending (clearPending s.irqPending x) }
        (.irqOut (highestPending (clearPending s.irqPending x)))))
    (cmd : ∀ s c, s.halted = false → P (.kbdCmd c) s
      { (if s.kbdCmdValid then logWarning (beginOp s) (.kbdCmdOverwrite s.kbdCmd c) else beginOp s) with
        kbdCmd := c, kbdCmdTime := s.timeUs, kbdCmdValid := true })
    (key : ∀ s c p, s.halted = false → P (.kbdKey c p) s
      { (if s.kbdEvtValid then logWarning (beginOp s) (.kbdEventOverwrite s.kbdEvt) else beginOp s) with
        kbdEvt := keyEvent s.cfg c p, kbdEvtValid := true })
    (sample : ∀ s, s.halted = false → P .btnSample s (returns (beginOp s) (.level s.mouseButton)))
    (drive : ∀ s v, s.halted = false → P (.ovlDrive v) s { beginOp s with overlay := v })
    (address : ∀ s i a, s.halted = false →
      (∃ x, i = .regionRam x) ∨ (∃ x, i = .regionRom x) ∨ (∃ x, i = .regionIochip x) ∨ i = .regionHook ∨
        (∃ x, i = .regionOverlayAlias x) → P i s (returns (beginOp s) (.addr a))) :
    ∀ i s t, exec i s = .next t → P i s t := by
  intro i s t h
  cases i <;>
    simp only [exec, execRdB, execRdW, execRdL, execIfW, execWrB, execWrW, execWrL, execIack,
      execReset, execIrqRaise, execIrqLower, execKbdCmd, execKbdKey, execTick, execMouseMove, execBtnSample, execOvlDrive,
      execRegionRam, execRegionRom, execRegionIochip, execRegionHook, execRegionOverlayAlias] at h
  all_goals obtain ⟨a, b⟩ := running_next h
  all_goals clear h
  case rdB A => cases b; exact read s .byte A a
  case rdW A => cases b; exact read s .word A a
  case rdL A => cases b; exact read s .long A a
  case ifW A => cases b; exact fetch s A a
  case wrB A v => cases b; exact write s .byte A v a
  case wrW A v => cases b; exact write s .word A v a
  case wrL A v => cases b; exact write s .long A v a
  case iack l => cases b; exact ack s l a
  case reset => cases b; exact reset s a
  case irqRaise x =>
    have := raise s x a
    split at b <;> rename_i hc <;> cases b
    · exact Eq.mp (congrArg (P _ s) (if_pos hc)) this
    · exact Eq.mp (congrArg (P _ s) (if_neg hc)) this
  case irqLower x => cases b; exact lower s x a
  case kbdCmd c => cases b; exact cmd s c a
  case kbdKey c p => cases b; exact key s c p a
  case tick x =>
    split at b
    · cases b
    · have := tick s x a (by rename_i hh; simpa [beginOp] using hh)
      split at b <;> rename_i hc <;> cases b
      · exact Eq.mp (congrArg (P _ s) (if_pos hc)) this
      · exact Eq.mp (congrArg (P _ s) (if_neg hc)) this
  case mouseMove dx dy b' => cases b; exact motion s dx dy b' a
  case btnSample => cases b; exact sample s a
  case ovlDrive v => cases b; exact drive s v a
  case regionRam x => cases b; exact address _ _ _ a (by simp)
  case regionRom x => cases b; exact address _ _ _ a (by simp)
  case regionIochip x => cases b; exact address _ _ _ a (by simp)
  case regionHook => cases b; exact address _ _ _ a (by simp)
  case regionOverlayAlias x => cases b; exact address _ _ _ a (by simp)

/-- A raise sets its own bit of the mask (R90). -/
theorem setPending_getLsbD (p : BitVec 8) (x : BitVec 3) (j : Nat) (hj : j < 8) :
    (setPending p x).getLsbD j = (decide (j = x.toNat) || p.getLsbD j) := by
  have bit : ∀ x : BitVec 3, ∀ j, j < 8 → (1#8 <<< x.toNat).getLsbD j = decide (j = x.toNat) := by decide
  simp [setPending, bit x j hj, Bool.or_comm]

/-- A lower clears its own bit of the mask (R91). -/
theorem clearPending_getLsbD (p : BitVec 8) (x : BitVec 3) (j : Nat) (hj : j < 8) :
    (clearPending p x).getLsbD j = (!decide (j = x.toNat) && p.getLsbD j) := by
  have bit : ∀ x : BitVec 3, ∀ j, j < 8 → (~~~(1#8 <<< x.toNat)).getLsbD j = !decide (j = x.toNat) := by decide
  rw [clearPending, BitVec.getLsbD_and, bit x j hj, Bool.and_comm]

/-- The scan of R91 finds the highest set bit index, or 0. -/
theorem isHighest_iff (p : BitVec 8) (l : BitVec 3) : IsHighest p l ↔ l = highestPending p := by
  have all : ∀ (p : BitVec 8) (l : BitVec 3),
      ((l = 0 ∨ p.getLsbD l.toNat = true) ∧ ∀ j < 8, l.toNat < j → p.getLsbD j = false) ↔ l = highestPending p := by
    set_option maxRecDepth 10000 in decide
  rw [← all]
  exact ⟨fun h => ⟨h.1, fun j a b => h.2 j b a⟩, fun h => ⟨h.1, fun j a b => h.2 j b a⟩⟩

/-- A raise moves the highest level exactly on a changed mask and a strict increase (R93). -/
theorem highestPending_setPending : ∀ (p : BitVec 8) (x : BitVec 3), highestPending (setPending p x) =
    if setPending p x ≠ p ∧ (highestPending p).toNat < x.toNat then x else highestPending p := by decide

/-- A raise changes the mask exactly when its bit was clear. -/
theorem setPending_ne_iff : ∀ (p : BitVec 8) (x : BitVec 3), setPending p x ≠ p ↔ p.getLsbD x.toNat = false := by
  decide

end Sys2Proof.Machine
end

