-- ==== Sys2Proof/Laws/PerInstr.lean ====
section
/-! SUPPORT. Statements for all instructions, one lemma per constructor. The family EncodesItsRow: the
encoding of an operation lies in its own row of spec/opcode_table.json. -/

namespace Sys2Proof.Laws

/-- Whether an encoding matches a row's mask and match. -/
def inRow (mask mtch : Nat) : Encoding → Prop
  | .opw w => w &&& BitVec.ofNat 64 mask = BitVec.ofNat 64 mtch
  | .addr _ a => a &&& BitVec.ofNat 24 mask = BitVec.ofNat 24 mtch

/-- The mask and match of an operation's row, as spec/opcode_table.json gives them. -/
def rowOf : Instr → Nat × Nat
  | .rdB _ => (0xFF000000FFFFFFFF, 0x0000000000000000)
  | .rdW _ => (0xFF000000FFFFFFFF, 0x0100000000000000)
  | .rdL _ => (0xFF000000FFFFFFFF, 0x0200000000000000)
  | .ifW _ => (0xFF000000FFFFFFFF, 0x0300000000000000)
  | .wrB _ _ => (0xFF000000FFFFFF00, 0x0400000000000000)
  | .wrW _ _ => (0xFF000000FFFF0000, 0x0500000000000000)
  | .wrL _ _ => (0xFF00000000000000, 0x0600000000000000)
  | .iack _ => (0xFFFFFFFFFFFFFFF8, 0x0800000000000000)
  | .reset => (0xFFFFFFFFFFFFFFFF, 0x0900000000000000)
  | .irqRaise _ => (0xFFFFFFFFFFFFFFF8, 0x1000000000000000)
  | .irqLower _ => (0xFFFFFFFFFFFFFFF8, 0x1100000000000000)
  | .kbdCmd _ => (0xFFFFFFFFFFFFFF00, 0x2000000000000000)
  | .kbdKey _ _ => (0xFFFFFFFFFFFFFE80, 0x2100000000000000)
  | .tick _ => (0xFF00000000000000, 0x2200000000000000)
  | .mouseMove _ _ _ => (0xFFFFFFFE00000000, 0x3000000000000000)
  | .btnSample => (0xFFFFFFFFFFFFFFFF, 0x3100000000000000)
  | .ovlDrive _ => (0xFFFFFFFFFFFFFFFE, 0x3800000000000000)
  | .regionRam _ => (0xC00000, 0x000000)
  | .regionRom _ => (0xF00000, 0x400000)
  | .regionIochip _ => (0xF80000, 0xE80000)
  | .regionHook => (0xFFFFFF, 0xC00069)
  | .regionOverlayAlias _ => (0xC00000, 0x000000)

def EncodesItsRow.Statement (i : Instr) : Prop := inRow (rowOf i).1 (rowOf i).2 (encode i)

/-- Masking two fields put together masks each. -/
theorem and_of_append {m n : Nat} (x p : BitVec m) (y q : BitVec n) : (x ++ y) &&& (p ++ q) = (x &&& p) ++ (y &&& q) := by
  apply BitVec.eq_of_getLsbD_eq
  intro i _
  simp only [BitVec.getLsbD_and, BitVec.getLsbD_append]
  split <;> rfl

/-- Masking an operation word masks each of its three fields. -/
theorem and_opWord (op mo : BitVec 8) (A mA : BitVec 24) (D mD : BitVec 32) :
    (op ++ A ++ D) &&& (mo ++ mA ++ mD) = (op &&& mo) ++ (A &&& mA) ++ (D &&& mD) := by
  rw [and_of_append, and_of_append]

/-- An operation word lies in a row whose mask covers `OP` and the bits its operands leave zero. -/
theorem inRow_opWord {op : BitVec 8} {A : BitVec 24} {D : BitVec 32} {mask mtch : Nat} (mA : BitVec 24)
    (mD : BitVec 32) (hmask : BitVec.ofNat 64 mask = 0xFF#8 ++ mA ++ mD)
    (hmatch : BitVec.ofNat 64 mtch = op ++ 0#24 ++ 0#32) (hA : A &&& mA = 0#24) (hD : D &&& mD = 0#32) :
    inRow mask mtch (opWord op A D) := by
  show (op ++ A ++ D) &&& BitVec.ofNat 64 mask = BitVec.ofNat 64 mtch
  rw [hmask, hmatch, and_opWord, hA, hD, show op &&& 0xFF#8 = op from BitVec.and_allOnes]

/-- A field whose high part is zero and whose low part is free. -/
theorem high_zero {m n : Nat} (p : BitVec m) (x : BitVec n) : (0#m ++ x) &&& (p ++ 0#n) = 0#(m + n) := by
  rw [and_of_append, BitVec.zero_and, BitVec.and_zero, BitVec.zero_append_zero]

/-- An address whose high part is the row's and whose low part is free lies in the row. -/
theorem inRow_addr {m n : Nat} (d : AddrDecoder) (p : BitVec m) (x : BitVec n) {mask mtch : Nat} (e : m + n = 24)
    (hmask : BitVec.ofNat 24 mask = (BitVec.allOnes m ++ 0#n).cast e) (hmatch : BitVec.ofNat 24 mtch = (p ++ 0#n).cast e) :
    inRow mask mtch (.addr d ((p ++ x).cast e)) := by
  show (p ++ x).cast e &&& BitVec.ofNat 24 mask = BitVec.ofNat 24 mtch
  rw [hmask, hmatch]
  have h := and_of_append p (BitVec.allOnes m) x 0#n
  rw [BitVec.and_allOnes, BitVec.and_zero] at h
  rw [← h]
  apply BitVec.eq_of_toNat_eq
  simp

theorem EncodesItsRow.rdB (addr : Nat) : EncodesItsRow.Statement (.rdB addr) :=
  inRow_opWord 0#24 0xFFFFFFFF#32 (by simp only [rowOf]; decide) (by simp only [rowOf]; decide)
    BitVec.and_zero (by decide)
theorem EncodesItsRow.rdW (addr : Nat) : EncodesItsRow.Statement (.rdW addr) :=
  inRow_opWord 0#24 0xFFFFFFFF#32 (by simp only [rowOf]; decide) (by simp only [rowOf]; decide)
    BitVec.and_zero (by decide)
theorem EncodesItsRow.rdL (addr : Nat) : EncodesItsRow.Statement (.rdL addr) :=
  inRow_opWord 0#24 0xFFFFFFFF#32 (by simp only [rowOf]; decide) (by simp only [rowOf]; decide)
    BitVec.and_zero (by decide)
theorem EncodesItsRow.ifW (addr : Nat) : EncodesItsRow.Statement (.ifW addr) :=
  inRow_opWord 0#24 0xFFFFFFFF#32 (by simp only [rowOf]; decide) (by simp only [rowOf]; decide)
    BitVec.and_zero (by decide)
theorem EncodesItsRow.wrB (addr : Nat) (v : BitVec 8) : EncodesItsRow.Statement (.wrB addr v) :=
  inRow_opWord 0#24 0xFFFFFF00#32 (by simp only [rowOf]; decide) (by simp only [rowOf]; decide)
    BitVec.and_zero (high_zero 0xFFFFFF#24 v)
theorem EncodesItsRow.wrW (addr : Nat) (v : BitVec 16) : EncodesItsRow.Statement (.wrW addr v) :=
  inRow_opWord 0#24 0xFFFF0000#32 (by simp only [rowOf]; decide) (by simp only [rowOf]; decide)
    BitVec.and_zero (high_zero 0xFFFF#16 v)
theorem EncodesItsRow.wrL (addr : Nat) (v : BitVec 32) : EncodesItsRow.Statement (.wrL addr v) :=
  inRow_opWord 0#24 0#32 (by simp only [rowOf]; decide) (by simp only [rowOf]; decide)
    BitVec.and_zero BitVec.and_zero
theorem EncodesItsRow.iack (level : BitVec 3) : EncodesItsRow.Statement (.iack level) :=
  inRow_opWord 0xFFFFFF#24 0xFFFFFFF8#32 (by simp only [rowOf]; decide) (by simp only [rowOf]; decide)
    (by decide) (high_zero 0x1FFFFFFF#29 level)
theorem EncodesItsRow.reset : EncodesItsRow.Statement .reset :=
  inRow_opWord 0xFFFFFF#24 0xFFFFFFFF#32 (by simp only [rowOf]; decide) (by simp only [rowOf]; decide)
    (by decide) (by decide)
theorem EncodesItsRow.irqRaise (source : BitVec 3) : EncodesItsRow.Statement (.irqRaise source) :=
  inRow_opWord 0xFFFFFF#24 0xFFFFFFF8#32 (by simp only [rowOf]; decide) (by simp only [rowOf]; decide)
    (by decide) (high_zero 0x1FFFFFFF#29 source)
theorem EncodesItsRow.irqLower (source : BitVec 3) : EncodesItsRow.Statement (.irqLower source) :=
  inRow_opWord 0xFFFFFF#24 0xFFFFFFF8#32 (by simp only [rowOf]; decide) (by simp only [rowOf]; decide)
    (by decide) (high_zero 0x1FFFFFFF#29 source)
theorem EncodesItsRow.kbdCmd (c : BitVec 8) : EncodesItsRow.Statement (.kbdCmd c) :=
  inRow_opWord 0xFFFFFF#24 0xFFFFFF00#32 (by simp only [rowOf]; decide) (by simp only [rowOf]; decide)
    (by decide) (high_zero 0xFFFFFF#24 c)

/-- Field `D` of `KBD.KEY`: the bits above the scancode but bit 8 are zero. -/
theorem keyField_unused (sc : BitVec 7) (pressed : Bool) :
    (0#23 ++ BitVec.ofBool pressed ++ 0#1 ++ sc) &&& 0xFFFFFE80#32 = 0#32 := by
  rw [show 0xFFFFFE80#32 = 0x7FFFFF#23 ++ 0#1 ++ 1#1 ++ 0#7 from rfl, and_of_append, and_of_append,
    and_of_append, BitVec.and_zero, BitVec.and_zero]
  rfl

theorem EncodesItsRow.kbdKey (sc : BitVec 7) (pressed : Bool) : EncodesItsRow.Statement (.kbdKey sc pressed) :=
  inRow_opWord 0xFFFFFF#24 0xFFFFFE80#32 (by simp only [rowOf]; decide) (by simp only [rowOf]; decide)
    (by decide) (keyField_unused sc pressed)
theorem EncodesItsRow.tick (t : BitVec 56) : EncodesItsRow.Statement (.tick t) :=
  inRow_opWord 0#24 0#32 (by simp only [rowOf]; decide) (by simp only [rowOf]; decide)
    BitVec.and_zero BitVec.and_zero
theorem EncodesItsRow.mouseMove (dx dy : BitVec 16) (button : Bool) : EncodesItsRow.Statement (.mouseMove dx dy button) :=
  inRow_opWord 0xFFFFFE#24 0#32 (by simp only [rowOf]; decide) (by simp only [rowOf]; decide)
    (high_zero 0x7FFFFF#23 (BitVec.ofBool button)) BitVec.and_zero
theorem EncodesItsRow.btnSample : EncodesItsRow.Statement .btnSample :=
  inRow_opWord 0xFFFFFF#24 0xFFFFFFFF#32 (by simp only [rowOf]; decide) (by simp only [rowOf]; decide)
    (by decide) (by decide)
theorem EncodesItsRow.ovlDrive (v : Bool) : EncodesItsRow.Statement (.ovlDrive v) :=
  inRow_opWord 0xFFFFFF#24 0xFFFFFFFE#32 (by simp only [rowOf]; decide) (by simp only [rowOf]; decide)
    (by decide) (high_zero 0x7FFFFFFF#31 (BitVec.ofBool v))
theorem EncodesItsRow.regionRam (low : BitVec 22) : EncodesItsRow.Statement (.regionRam low) :=
  inRow_addr .data 0x0#2 low rfl (by simp only [rowOf]; decide) (by simp only [rowOf]; decide)
theorem EncodesItsRow.regionRom (low : BitVec 20) : EncodesItsRow.Statement (.regionRom low) :=
  inRow_addr .data 0x4#4 low rfl (by simp only [rowOf]; decide) (by simp only [rowOf]; decide)
theorem EncodesItsRow.regionIochip (low : BitVec 19) : EncodesItsRow.Statement (.regionIochip low) :=
  inRow_addr .data 0x1D#5 low rfl (by simp only [rowOf]; decide) (by simp only [rowOf]; decide)
theorem EncodesItsRow.regionHook : EncodesItsRow.Statement .regionHook := by
  show 0xC00069#24 &&& BitVec.ofNat 24 0xFFFFFF = BitVec.ofNat 24 0xC00069
  decide
theorem EncodesItsRow.regionOverlayAlias (low : BitVec 22) : EncodesItsRow.Statement (.regionOverlayAlias low) :=
  inRow_addr .fetch 0x0#2 low rfl (by simp only [rowOf]; decide) (by simp only [rowOf]; decide)

end Sys2Proof.Laws
end

