-- ==== Sys2Proof/Tests/Slice0.lean ====
section
/-! SUPPORT. Tests. Every expected result is written out from the spec: words from 30_encoding.md R58 and
95_test_vectors.md, effects from 95_test_vectors.md (rows B, V, I, K, M, H, E) under the fixture of its
section 2, of which only the ROM bytes a test reads are listed. -/

namespace Sys2Proof.Tests

open Sys2Proof.Machine

/-! ### Helpers -/

/-- The ROM bytes of the fixture that the tests read (95_test_vectors.md section 2). -/
def fixtureRom : Mem :=
  [(0, 0xDE), (1, 0xAD), (2, 0xBE), (3, 0xEF), (4, 0x01), (5, 0x02), (6, 0x03), (7, 0x04), (8, 0xFF),
   (0x1FFFE, 0xFF), (0x1FFFF, 0xFF)]

/-- The fixture: REF, zero RAM, the ROM above. -/
def fixture : State := State.init Config.ref [] fixtureRom [none, none]

/-- One operation's next state, or the state itself where it stops. -/
def after (i : Instr) (s : State) : State :=
  match exec i s with
  | .next t => t
  | .fault _ => s
  | .refused _ => s

/-- Whether an operation answers a next state. -/
def completes (i : Instr) (s : State) : Bool :=
  match exec i s with
  | .next _ => true
  | .fault _ => false
  | .refused _ => false

/-- The fault an operation stops with, if it stops with one. -/
def faultOf (i : Instr) (s : State) : Option Fault :=
  match exec i s with
  | .next _ => none
  | .fault r => some r
  | .refused _ => none

/-- The refusal of an outcome, if it is one. -/
def refusalOf (o : Host.Outcome State Fault Refusal) : Option Refusal :=
  match o with
  | .next _ => none
  | .fault _ => none
  | .refused r => some r

/-- The word form of a decoded operation, for the decode tests. -/
def reads (w : Nat) (i : Instr) : Bool := decide (decodeTableWord 64 w = some i)

/-- The error of a refused word. -/
def errorOf (w : BitVec 64) : Option DecodeError :=
  match decodeOpw w with
  | .ok _ => none
  | .error e => some e

/-! ### Well-formedness -/

theorem test_ill_formed_addresses :
    [Instr.rdB 0x1000000, .rdW 0x1000000, .rdL 0x1000000, .ifW 0x1000000, .wrB 0x1000000 0,
     .wrW 0x1000000 0, .wrL 0x1000000 0].all (fun i => !i.wellFormed) = true := by decide

theorem test_well_formed_top_address : (Instr.rdB 0xFFFFFF).wellFormed = true := by decide

/-! ### Decoding: words from 95_test_vectors.md -/

theorem test_decode_bus_reads :
    reads 0x0040000100000000 (.rdB 0x400001) && reads 0x0140000200000000 (.rdW 0x400002) &&
    reads 0x0240000000000000 (.rdL 0x400000) && reads 0x0340000400000000 (.ifW 0x400004) = true := by decide

theorem test_decode_bus_writes :
    reads 0x040001000000005A (.wrB 0x000100 0x5A) && reads 0x0500001100001234 (.wrW 0x000011 0x1234) &&
    reads 0x0601FFFEAABBCCDD (.wrL 0x01FFFE 0xAABBCCDD) && reads 0x06FFFFFFFFFFFFFF (.wrL 0xFFFFFF 0xFFFFFFFF) = true := by
  decide

theorem test_decode_interrupt_words :
    reads 0x0800000000000002 (.iack 2) && reads 0x1000000000000001 (.irqRaise 1) &&
    reads 0x1100000000000005 (.irqLower 5) = true := by decide

theorem test_decode_keyboard_words :
    reads 0x2000000000000016 (.kbdCmd 0x16) && reads 0x210000000000017F (.kbdKey 0x7F true) &&
    reads 0x2100000000000033 (.kbdKey 0x33 false) && reads 0x22FFFFFFFFFFFFFF (.tick 0xFFFFFFFFFFFFFF) = true := by
  decide

theorem test_decode_mouse_words :
    reads 0x300000017FFF8000 (.mouseMove 0x8000 0x7FFF true) && reads 0x3000000100030005 (.mouseMove 5 3 true) &&
    reads 0x3100000000000000 .btnSample = true := by decide

theorem test_decode_control_words :
    reads 0x0900000000000000 .reset && reads 0x3800000000000001 (.ovlDrive true) = true := by decide

theorem test_decode_address_rows :
    decodeTableWord 24 0x02082A = some (.regionRam 0x02082A) ∧ decodeTableWord 24 0x4E0000 = some (.regionRom 0xE0000) ∧
    decodeTableWord 24 0xE81200 = some (.regionIochip 0x01200) ∧ decodeTableWord 24 0xC00069 = some .regionHook ∧
    decodeTableWord 24 0x500000 = none := by decide

theorem test_decode_fetch_alias_row :
    encode (.regionOverlayAlias 0x1FFFF) = .addr .fetch 0x01FFFF ∧
    (match decode (.addr .fetch 0x01FFFF) with | .ok i => some i | .error _ => none) =
      some (.regionOverlayAlias 0x1FFFF) := by decide

theorem test_decode_refuses_reserved_op : errorOf 0x0700000000000000 = some (.reservedOp 0x07) := by decide

theorem test_decode_refuses_unused_bits :
    [0x0000000000000001#64, 0x0400000000000100, 0x0500000000010000, 0x0800000000000008, 0x2100000000000080,
     0x3000000200000000, 0x3800000000000002, 0x0900000000000001, 0x3100000100000000].map errorOf =
    [some (.unusedBitSet 0x00), some (.unusedBitSet 0x04), some (.unusedBitSet 0x05), some (.unusedBitSet 0x08),
     some (.unusedBitSet 0x21), some (.unusedBitSet 0x30), some (.unusedBitSet 0x38), some (.unusedBitSet 0x09),
     some (.unusedBitSet 0x31)] := by decide

theorem test_encode_words :
    encode (.mouseMove 0xFFFF 0xFFFE false) = .opw 0x30000000FFFEFFFF ∧ encode (.kbdKey 0x33 true) = .opw 0x2100000000000133 ∧
    encode (.tick 25000) = .opw 0x22000000000061A8 := by decide

theorem test_rows_do_not_overlap :
    opwRows.Pairwise (fun r q => (r.matchBits ^^^ q.matchBits) &&& r.maskBits &&& q.maskBits ≠ 0) := by decide

/-! ### Power-on and stepping -/

theorem test_reset_config_valid : State.reset.cfg.valid = true := by decide

theorem test_step_runs_first_word :
    (match step (State.reset.withFetchWord 64 0x3800000000000000) with
      | .next t => some (t.overlay, t.issued) | .fault _ => none | .refused _ => none) = some (false, []) := by decide

theorem test_step_answers_address_row :
    (match step (State.reset.withFetchWord 24 0x02082A) with
      | .next t => t.ret | .fault _ => none | .refused _ => none) =
      some (.addr ⟨.plain .ram, some 0x082A⟩) := by decide

theorem test_step_refuses_undefined_word :
    refusalOf (step (State.reset.withFetchWord 64 0x0700000000000000)) =
      some (.undefinedEncoding (.reservedOp 0x07)) := by decide

theorem test_power_on_refuses_bad_config :
    refusalOf (powerOn { Config.ref with addrBits := 23 } [] [] [none, none]) = some .badConfig := by decide

theorem test_power_on_refuses_overlap :
    refusalOf (powerOn { Config.ref with iochipBase := 0x3FFFFF } [] [] [none, none]) = some .badConfig := by decide

/-! ### Bus reads: rows B1 to B6, B13, B17, B21, B23 -/

theorem test_rdB_rom : (after (.rdB 0x400001) fixture).ret = some (.byte 0xAD) := by decide

theorem test_rdB_device :
    let t := after (.rdB 0xEFE1FE) { fixture with envDev := some 0xA5 }
    t.ret = some (.byte 0xA5) ∧ t.out = [.devRead 0 0xA5] := by decide

theorem test_rdW_rom_odd : (after (.rdW 0x400007) fixture).ret = some (.word 0x04FF) := by decide

theorem test_rdW_hook_fatal :
    let t := after (.rdW 0xC00069) fixture
    t.halted = true ∧ t.ret = none ∧ t.out = [.fatal (.busNoSemantics 0xC00069 .word .read)] := by decide

theorem test_rdL_rom_wraps : (after (.rdL 0x41FFFE) fixture).ret = some (.long 0xFFFFDEAD) := by decide

theorem test_rdL_unmapped :
    let t := after (.rdL 0x900000) fixture
    t.ret = some (.long 0) ∧ t.out = [.log (.unmappedRead 0x900000 .long)] ∧ t.halted = false := by decide

/-! ### Fetch: rows V5, V8 -/

theorem test_ifW_alias_wraps : (after (.ifW 0x01FFFF) fixture).ret = some (.word 0xFFDE) := by decide

theorem test_ifW_ram_after_drive :
    (after (.ifW 0) (after (.wrW 0 0x4E71) (after (.ovlDrive false) fixture))).ret = some (.word 0x4E71) := by decide

/-! ### Bus writes: rows B8, B9, B11, B12, H3, B22 -/

theorem test_wrB_mirror : (after (.rdB 0x020100) (after (.wrB 0x000100 0x5A) fixture)).ret = some (.byte 0x5A) := by
  decide

theorem test_wrB_hook_fails :
    let t := after (.wrB 0xC00069 0x02) { fixture with envDisc := some 5 }
    t.halted = true ∧ t.out = [.discCmd 0x02 5, .fatal (.discHookFailed 0x02 5)] := by decide

theorem test_wrW_odd : (after (.wrW 0x000011 0x1234) fixture).ram = [(0x11, 0x12), (0x12, 0x34)] := by decide

theorem test_wrW_device_fatal :
    let t := after (.wrW 0xEFFFFE 0) fixture
    t.halted = true ∧ t.out = [.fatal (.busNoSemantics 0xEFFFFE .word .write)] := by decide

theorem test_wrL_wraps :
    (after (.wrL 0x01FFFE 0xAABBCCDD) fixture).ram = [(0, 0xCC), (1, 0xDD), (0x1FFFE, 0xAA), (0x1FFFF, 0xBB)] := by
  decide

theorem test_wrL_last_ram_address :
    (after (.rdW 0) (after (.wrL 0x3FFFFE 0x01020304) fixture)).ret = some (.word 0x0304) := by decide

theorem test_write_zero_removes_cell :
    (after (.wrB 0x10 0) (after (.wrB 0x10 0x5A) fixture)).ram = [] := by decide

/-! ### Interrupts: rows I3, I7, I8, I9, I5 -/

/-- `(irq_pending, irq_level)` of the rows. -/
def irqState (p : BitVec 8) (l : BitVec 3) : State := { fixture with irqPending := p, irqLevel := l }

theorem test_irqRaise_strict :
    let t := after (.irqRaise 4) (irqState 0x03 1)
    t.irqPending = 0x13 ∧ t.irqLevel = 4 ∧ t.out = [.irqOut 4] := by decide

theorem test_irqRaise_zero_silent :
    let t := after (.irqRaise 0) (irqState 0x06 2)
    t.irqPending = 0x07 ∧ t.irqLevel = 2 ∧ t.out = [] := by decide

theorem test_irqLower_below_maximum :
    let t := after (.irqLower 1) (irqState 0x13 4)
    t.irqPending = 0x11 ∧ t.irqLevel = 4 ∧ t.out = [.irqOut 4] := by decide

theorem test_irqLower_only_source :
    let t := after (.irqLower 4) (irqState 0x11 4)
    t.irqPending = 0x01 ∧ t.irqLevel = 0 ∧ t.out = [.irqOut 0] := by decide

theorem test_iack_keeps_request :
    let t := after (.iack 2) (irqState 0x07 2)
    t.ret = some (.ack .autovec) ∧ t.irqPending = 0x07 ∧ t.irqLevel = 2 := by decide

/-! ### Keyboard: rows K1, K3, K6, K8, K9, K12 -/

/-- A latched command. -/
def latched (c : Byte) (t : Time) : State :=
  { fixture with kbdCmdValid := true, kbdCmd := c, kbdCmdTime := t, timeUs := t }

theorem test_kbdCmd_latches :
    let t := after (.kbdCmd 0x10) { fixture with timeUs := 20000 }
    t.kbdCmdValid = true ∧ t.kbdCmd = 0x10 ∧ t.kbdCmdTime = 20000 ∧ t.out = [] := by decide

theorem test_kbdCmd_overwrite :
    (after (.kbdCmd 0x16) (latched 0x10 0)).out = [.log (.kbdCmdOverwrite 0x10 0x16)] := by decide

theorem test_kbdKey_press : (after (.kbdKey 0x33 true) fixture).kbdEvt = 0xB3 := by decide

theorem test_kbdKey_overwrite :
    let t := after (.kbdKey 0x00 true) { fixture with kbdEvtValid := true, kbdEvt := 0xB3 }
    t.kbdEvt = 0x80 ∧ t.out = [.log (.kbdEventOverwrite 0xB3)] := by decide

theorem test_tick_dwell_edge :
    (after (.tick 24999) (latched 0x16 20000)).out = [] ∧
    (after (.tick 25000) (latched 0x16 20000)).out = [.srRx 0x0B] ∧
    (after (.tick 25000) (latched 0x16 20000)).kbdCmdValid = false := by decide

theorem test_tick_unknown_command :
    let t := after (.tick 5000) (latched 0x36 0)
    t.out = [.log (.kbdUnknownCmd 0x36)] ∧ t.kbdCmdValid = false := by decide

theorem test_tick_delivers_event :
    let t := after (.tick 5000) { latched 0x10 0 with kbdEvtValid := true, kbdEvt := 0xB3 }
    t.out = [.srRx 0xB3] ∧ t.kbdEvtValid = false := by decide

theorem test_tick_back_refused :
    refusalOf (exec (.tick 6) { fixture with timeUs := 7 }) = some (.timeRunsBack 7 6) := by decide

/-! ### Mouse: rows M2, M5, M7 -/

/-- The mouse cells at chosen values: vertical, horizontal, flag. -/
def mouseState (y0 y1 x0 x1 f : Byte) : State :=
  { fixture with ram := Mem.ofCells 0x20000 [(0x0828, y0), (0x0829, y1), (0x082A, x0), (0x082B, x1), (0x08CE, f)] }

theorem test_mouseMove_wraps :
    let t := after (.mouseMove 5 3 true) (mouseState 0x00 0x01 0xFF 0xFE 0x00)
    (after (.rdW 0x82A) t).ret = some (.word 0x0003) ∧ (after (.rdW 0x828) t).ret = some (.word 0xFFFE) ∧
    (after (.rdB 0x8CE) t).ret = some (.byte 0x01) ∧ t.mouseButton = true := by decide

theorem test_mouseMove_extreme :
    let t := after (.mouseMove 0x8000 0x8000 false) (mouseState 0 0 0 0 0x7F)
    (after (.rdW 0x82A) t).ret = some (.word 0x8000) ∧ (after (.rdW 0x828) t).ret = some (.word 0x8000) ∧
    (after (.rdB 0x8CE) t).ret = some (.byte 0x00) := by decide

theorem test_btnSample_level :
    (after .btnSample (after (.mouseMove 0 0 true) fixture)).ret = some (.level true) := by decide

/-! ### RESET, OVL.DRIVE, Halted, address rows -/

theorem test_reset_only_overlay :
    let t := after .reset { irqState 0x08 3 with overlay := false }
    t.overlay = true ∧ t.irqPending = 0x08 ∧ t.irqLevel = 3 ∧ t.out = [] := by decide

theorem test_ovlDrive_off : (after (.ovlDrive false) fixture).overlay = false := by decide

theorem test_halted_refuses_reset : faultOf .reset { fixture with halted := true } = some .halted := by decide

theorem test_region_rows :
    (after (.regionRam 0x2082A) fixture).ret = some (.addr ⟨.plain .ram, some 0x082A⟩) ∧
    (after (.regionRom 0xE0000) fixture).ret = some (.addr ⟨.plain .rom, some 0⟩) ∧
    (after (.regionIochip 0x01200) fixture).ret = some (.addr ⟨.plain .iochip, some 9⟩) ∧
    (after .regionHook fixture).ret = some (.addr ⟨.plain .hook, none⟩) ∧
    (after (.regionOverlayAlias 0x2082A) fixture).ret = some (.addr ⟨.romAlias, some 0x082A⟩) := by decide

/-! ### Witnesses: concrete states and operands that meet all hypotheses of a statement together -/

/-- A configuration with two extra windows, a fatal ROM policy, one hole of the I/O chip, an overlay
smaller than RAM and a response to one other command. -/
def richConfig : Config := { Config.ref with
  extraWindows := [⟨0xD00000, 0x100, ⟨true, false, false⟩⟩, ⟨0xD00100, 0x100, ⟨false, true, false⟩⟩]
  romWritePolicy := .fatal
  iochipHoles := [15]
  ovlSize := 0x200000
  kbdOtherResponse := ⟨[(0x36, some 0x7D)], none⟩ }

/-- A state under it. -/
def rich : State := State.init richConfig [] fixtureRom [none, some ⟨[], 0x200, true⟩]

/-- A halted state. -/
def haltedState : State := { fixture with halted := true }

theorem fixture_inv : fixture.Inv := by unfold State.Inv; decide

theorem rich_inv : rich.Inv := by unfold State.Inv; decide

theorem halted_inv : haltedState.Inv := by unfold State.Inv; decide

theorem witness_InitGivesTheStartState :
    richConfig.valid = true ∧ Mem.wf richConfig.ramSize [(0, 1), (0x1FFFF, 0xFF)] = true ∧
    Mem.wf richConfig.romSize fixtureRom = true ∧ drivesFit richConfig [none, some ⟨[(0x1FF, 1)], 0x200, true⟩] = true := by
  decide

theorem witness_ValidConfigMeetsTheConstraints :
    ({ fixture with cfg := { Config.ref with kbdCmdInquiry := 0x16 } } : State).cfg.valid = false := by decide

theorem witness_EveryStepKeepsInvariant :
    (rich.withFetchWord 64 0x1000000000000007).Inv ∧
    ∃ t, step (rich.withFetchWord 64 0x1000000000000007) = .next t ∧ t.irqLevel = 7 :=
  ⟨by unfold State.Inv; decide, _, rfl, by decide⟩

theorem witness_StepRunsTheIssuedOperation :
    (let s := { fixture with issued := [.word (.opw 0x02FFFFFF00000000), .value .reset] }
     s.cfg.valid = true ∧ s.cfg.addrBits = 24 ∧ decode (.opw 0x02FFFFFF00000000) = .ok (.rdL 0xFFFFFF) ∧
     (Instr.rdL 0xFFFFFF).wellFormed = true) ∧
    (let s := { fixture with issued := [.value (.rdL 0x1000000)] }
     s.cfg.valid = true ∧ s.issued = .value (.rdL 0x1000000) :: []) :=
  ⟨⟨by decide, rfl, rfl, by decide⟩, by decide, rfl⟩

theorem witness_StepTakesEnvironmentEntries :
    fixture.cfg.valid = true ∧ fixture.issued = [] ∧
    ({ fixture with issued := [.envDev 0xA5] } : State).issued = .envDev 0xA5 :: [] ∧
    ({ fixture with issued := [.envDisc 0xFFFFFFFF] } : State).issued = .envDisc 0xFFFFFFFF :: [] := by decide

theorem witness_DecodeAcceptsExactlyTheTable :
    fixture.cfg.valid = true ∧ fixture.cfg.addrBits = 24 ∧
    (∀ r ∈ opwRows, (0x0900000000000001#64) &&& r.maskBits ≠ r.matchBits) ∧
    (∀ r ∈ opwRows, (0xFFFFFFFFFFFFFFFF#64) &&& r.maskBits ≠ r.matchBits) := by decide

/-- The ends of the six reserved ranges of R70. -/
theorem witness_ReservedOpValuesAreRefused :
    [0x07, 0x0A, 0x0F, 0x12, 0x1F, 0x23, 0x2F, 0x32, 0x37, 0x39, 0xFF].all (fun n =>
      decide ((opField (BitVec.ofNat 64 (n * 2 ^ 56))).toNat = n) &&
      decide (n = 0x07 ∨ (0x0A ≤ n ∧ n ≤ 0x0F) ∨ (0x12 ≤ n ∧ n ≤ 0x1F) ∨ (0x23 ≤ n ∧ n ≤ 0x2F) ∨
        (0x32 ≤ n ∧ n ≤ 0x37) ∨ (0x39 ≤ n ∧ n ≤ 0xFF))) = true := by decide

theorem witness_DecodeOfEncodeIsIdentity :
    (Instr.wrL 0xFFFFFF 0xFFFFFFFF).wellFormed = true ∧ (Instr.mouseMove 0x8000 0x7FFF true).wellFormed = true := by decide

theorem witness_EncodeOfDecodeIsIdentity :
    decode (.opw 0x300000017FFF8000) = .ok (.mouseMove 0x8000 0x7FFF true) ∧
    decode (.addr .data 0xE80000) = .ok (.regionIochip 0) := ⟨rfl, rfl⟩

theorem witness_RegionIsTheRangeTest : richConfig.valid = true := by decide

theorem witness_OffsetsAreTheMasks : richConfig.valid = true := by decide

theorem witness_ArrayAccessIsBigEndianAndWraps :
    fixture.Inv ∧ ∀ k, k < 2 → (5 : Nat) ≠ (0x1FFFF + k) % fixture.cfg.ramSize :=
  ⟨fixture_inv, by decide⟩

theorem witness_ReadsOfRamAndRomComplete :
    fixture.halted = false ∧ fixture.regionOf 0x000000 = .ram ∧ fixture.regionOf 0x3FFFFF = .ram ∧
    fixture.regionOf 0x400000 = .rom ∧ fixture.regionOf 0x4FFFFF = .rom := by decide

theorem witness_DeviceReadAnswersTheChip :
    rich.halted = false ∧ rich.regionOf 0xE80000 = .iochip ∧ rich.regionOf 0xEFFFFF = .iochip ∧
    subreg rich.cfg (busAddr rich.cfg 0xE80000) ∉ rich.cfg.iochipHoles ∧
    subreg rich.cfg (busAddr rich.cfg 0xEFFFFF) ∈ rich.cfg.iochipHoles := by decide

theorem witness_ToleratedReadsReturnZero :
    rich.halted = false ∧ rich.regionOf 0x500000 = .unmapped ∧ rich.regionOf 0xFFFFFF = .unmapped ∧
    rich.regionOf 0xC00069 = .hook ∧ rich.regionOf 0xD00000 = .extra 0 ∧ extraHas rich.cfg 0 .byte = true ∧
    rich.regionOf 0xD001FF = .extra 1 ∧ extraHas rich.cfg 1 .word = true := by decide

theorem witness_ReadsOfALackingWidthHalt :
    rich.halted = false ∧ (rich.regionOf 0xE80000 = .iochip ∧ Width.word ≠ .byte) ∧
    (rich.regionOf 0xC00069 = .hook ∧ Width.long ≠ .byte) ∧
    rich.regionOf 0xD000FF = .extra 0 ∧ extraHas rich.cfg 0 .word = false := by decide

theorem witness_FetchReadsTheOverlaidMap :
    rich.halted = false ∧ (rich.overlay = true ∧ busAddr rich.cfg 0x1FFFFF < rich.cfg.ovlSize) ∧
    (rich.cfg.ovlSize ≤ busAddr rich.cfg 0x200000 ∧ rich.regionOf 0x200000 = .ram) ∧
    (rich.cfg.ovlSize ≤ busAddr rich.cfg 0x400000 ∧ rich.regionOf 0x400000 = .rom) ∧
    ({ rich with overlay := false } : State).overlay = false ∧
    ({ rich with overlay := false } : State).regionOf 0 = .ram := by decide

theorem witness_FetchElsewhereIsToleratedOrHalts :
    rich.halted = false ∧ (rich.cfg.ovlSize ≤ busAddr rich.cfg 0xFFFFFF ∧ rich.regionOf 0xFFFFFF = .unmapped) ∧
    (rich.regionOf 0xD00100 = .extra 1 ∧ extraHas rich.cfg 1 .word = true) ∧
    rich.regionOf 0xE80000 = .iochip ∧ rich.regionOf 0xC00069 = .hook ∧
    (rich.regionOf 0xD00000 = .extra 0 ∧ extraHas rich.cfg 0 .word = false) ∧
    rich.cfg.ovlSize ≤ busAddr rich.cfg 0xC00069 := by decide

theorem witness_RamWritesStoreTheBytes :
    rich.Inv ∧ rich.halted = false ∧ rich.regionOf 0x01FFFF = .ram ∧
    ∀ k, k < 4 → (0x1FFFE : Nat) ≠ (ramOffset rich.cfg (busAddr rich.cfg 0x01FFFF) + k) % rich.cfg.ramSize :=
  ⟨rich_inv, by decide⟩

theorem witness_RamRoundTrip : rich.Inv ∧ rich.halted = false ∧ rich.regionOf 0x3FFFFF = .ram :=
  ⟨rich_inv, by decide⟩

theorem witness_ToleratedWritesAreDropped :
    fixture.halted = false ∧ fixture.regionOf 0xC00068 = .unmapped ∧
    (fixture.regionOf 0x4FFFFF = .rom ∧ fixture.cfg.romWritePolicy = .drop) ∧
    rich.halted = false ∧ rich.regionOf 0xD000FF = .extra 0 ∧ extraHas rich.cfg 0 .byte = true := by decide

theorem witness_WritesWithoutSemanticsHalt :
    rich.halted = false ∧ (rich.regionOf 0xEFFFFF = .iochip ∧ Width.long ≠ .byte) ∧
    (rich.regionOf 0xC00069 = .hook ∧ Width.word ≠ .byte) ∧
    (rich.regionOf 0x400000 = .rom ∧ rich.cfg.romWritePolicy = .fatal) ∧
    rich.regionOf 0xD00100 = .extra 1 ∧ extraHas rich.cfg 1 .byte = false := by decide

theorem witness_DeviceWriteReachesTheChip :
    rich.halted = false ∧ rich.regionOf 0xE81C00 = .iochip ∧
    subreg rich.cfg (busAddr rich.cfg 0xE81C00) ∉ rich.cfg.iochipHoles ∧ rich.regionOf 0xE81E00 = .iochip ∧
    subreg rich.cfg (busAddr rich.cfg 0xE81E00) ∈ rich.cfg.iochipHoles := by decide

theorem witness_HookWriteForwardsAndTestsStatus :
    rich.halted = false ∧ rich.regionOf 0xC00069 = .hook ∧
    ({ rich with envDisc := some 5 } : State).envDisc = some 5 ∧ rich.drives[0]? = some none := by decide

theorem witness_OnlyTheHookByteWriteCallsTheDisc :
    ∃ t, exec (.wrB 0xC00069 0x02) { rich with envDisc := some 0 } = .next t ∧ .discCmd 0x02 0 ∈ t.out :=
  ⟨_, rfl, by decide⟩

theorem witness_OverlayReachesOnlyLowFetches : rich.cfg.ovlSize ≤ busAddr rich.cfg 0x200000 := by decide

theorem witness_FetchSeesTheStoredWord :
    rich.Inv ∧ rich.halted = false ∧ rich.regionOf 0x200000 = .ram ∧ rich.cfg.ovlSize ≤ busAddr rich.cfg 0x200000 ∧
    rich.regionOf 0x1FFFFF = .ram ∧ rich.overlay = true ∧ busAddr rich.cfg 0x1FFFFF < rich.cfg.ovlSize ∧
    ({ rich with overlay := false } : State).overlay = false :=
  ⟨rich_inv, by decide⟩

theorem witness_PlainReadsAreIdempotent :
    rich.regionOf 0xC00069 ≠ .iochip ∧ rich.regionOf 0 ≠ .iochip ∧
    (∃ t, exec (readOp .byte 0xC00069) rich = .next t ∧ t.halted = false) ∧
    (∃ t, exec (.ifW 0) rich = .next t ∧ t.halted = false) :=
  ⟨by decide, by decide, ⟨_, rfl, by decide⟩, _, rfl, by decide⟩

theorem witness_RomIsReadOnly : ∃ t, exec (.wrL 0x400000 0) fixture = .next t := ⟨_, rfl⟩

theorem witness_RamChangesOnlyByWritesAndMouse :
    (∃ t, exec (.irqLower 3) rich = .next t) ∧ (∀ w A v, Instr.irqLower 3 ≠ writeOp w A v) ∧
    (∀ dx dy b, Instr.irqLower 3 ≠ .mouseMove dx dy b) ∧
    (∃ t, exec (.wrB 0 1) rich = .next t) ∧
    (∀ A v, ¬ (Instr.wrB 0 1 = .wrB A v ∧ rich.regionOf A = .hook)) := by
  refine ⟨⟨_, rfl⟩, fun w A v => by cases w <;> simp [writeOp], by simp, ⟨_, rfl⟩, ?_⟩
  rintro A v ⟨h, hr⟩
  injection h with h1 h2
  rw [← h1] at hr
  exact absurd hr (by decide)

theorem witness_RegistersHaveOnlyTheirWriters :
    (∃ t, exec .btnSample rich = .next t) ∧ (∀ v, Instr.btnSample ≠ .ovlDrive v) ∧ Instr.btnSample ≠ .reset ∧
    (∀ x, Instr.btnSample ≠ .irqRaise x) ∧ (∀ x, Instr.btnSample ≠ .irqLower x) ∧
    (∀ c, Instr.btnSample ≠ .kbdCmd c) ∧ (∀ x, Instr.btnSample ≠ .tick x) ∧ (∀ k p, Instr.btnSample ≠ .kbdKey k p) ∧
    (∀ dx dy b, Instr.btnSample ≠ .mouseMove dx dy b) := by
  refine ⟨⟨_, rfl⟩, ?_⟩
  simp

theorem witness_TimeNeverDecreases :
    ∃ t, exec (.tick 0xFFFFFFFFFFFFFF) (latched 0x36 7) = .next t ∧ Instr.tick 0xFFFFFFFFFFFFFF = .tick t.timeUs :=
  ⟨_, rfl, rfl⟩

theorem witness_HaltedIsTerminal :
    haltedState.halted = true ∧ ∃ t, step { haltedState with issued := [.envDev 1] } = .next t :=
  ⟨rfl, _, rfl⟩

theorem witness_OnlyBusOperationsHalt : ∃ t, exec (.wrL 0x400000 1) rich = .next t ∧ t.halted = true :=
  ⟨_, rfl, by decide⟩

theorem witness_FatalEndsTheOperation : ∃ t, exec (.ifW 0xE80000) rich = .next t ∧ t.halted = true :=
  ⟨_, rfl, by decide⟩

theorem witness_IackReturnsTheAutovector :
    fixture.halted = false ∧ haltedState.halted = true ∧ fixture.cfg = Config.ref := by decide

theorem witness_RaiseSetsBitAndMayRaiseLevel :
    haltedState.halted = true ∧ (irqState 0x06 2).halted = false ∧
    ((irqState 0x06 2).irqPending.getLsbD 3 = false ∧ (irqState 0x06 2).irqLevel.toNat < (3 : BitVec 3).toNat) ∧
    (irqState 0x06 2).irqPending.getLsbD 2 = true ∧ (0 : BitVec 3).toNat ≤ (irqState 0x06 2).irqLevel.toNat := by decide

theorem witness_LowerClearsBitAndSendsLevel : fixture.halted = false ∧ haltedState.halted = true := by decide

theorem witness_LevelIsTheHighestPending :
    (∃ s, powerOn Config.ref [] [] [none, none] = .next s) ∧
    IsHighest (irqState 0x81 7).irqPending (irqState 0x81 7).irqLevel ∧
    ∃ t, exec (.irqLower 7) (irqState 0x81 7) = .next t :=
  ⟨⟨_, rfl⟩, ⟨by decide, fun j h1 h2 => absurd h1 (Nat.not_lt.mpr (Nat.le_of_lt_succ h2))⟩, _, rfl⟩

theorem witness_CpuLineFollowsTheLevel :
    ∃ t, exec (.irqRaise 7) (irqState 0x06 2) = .next t ∧ .irqOut 7 ∈ t.out ∧ t.irqLevel ≠ (irqState 0x06 2).irqLevel :=
  ⟨_, rfl, by decide, by decide⟩

theorem witness_SourceZeroNeverInterrupts :
    (irqState 0x01 0).Inv ∧ (irqState 0x01 0).halted = false ∧ (irqState 0x01 0).irqPending = 0x01#8 :=
  ⟨by unfold State.Inv; decide, by decide, by decide⟩

theorem witness_KbdCmdLatchesTheByte : haltedState.halted = true ∧ (latched 0x10 0).halted = false := by decide

theorem witness_KbdKeyFillsTheSlot : haltedState.halted = true ∧ fixture.halted = false := by decide

/-- The dwell's two sides, each dispatch of R102, and a time that runs back. -/
theorem witness_TickFollowsTheTransitionTable :
    haltedState.halted = true ∧ (latched 0x16 7).halted = false ∧
    ((6 : BitVec 56).toNat < (latched 0x16 7).timeUs.toNat) ∧
    ((latched 0x16 7).timeUs.toNat ≤ (5006 : BitVec 56).toNat ∧
      ((5006 : BitVec 56).toNat : Int) - (latched 0x16 7).kbdCmdTime.toNat < (latched 0x16 7).cfg.kbdDwell) ∧
    fixture.kbdCmdValid = false ∧
    ((latched 0x16 7).kbdCmdValid = true ∧
      ((latched 0x16 7).cfg.kbdDwell : Int) ≤ ((5007 : BitVec 56).toNat : Int) - (latched 0x16 7).kbdCmdTime.toNat ∧
      (latched 0x16 7).kbdCmd = (latched 0x16 7).cfg.kbdCmdModel) ∧
    ((latched 0x10 7).kbdCmd ≠ (latched 0x10 7).cfg.kbdCmdModel ∧ (latched 0x10 7).kbdCmd = (latched 0x10 7).cfg.kbdCmdInquiry ∧
      (latched 0x10 7).kbdEvtValid = false) ∧
    ({ latched 0x10 7 with kbdEvtValid := true } : State).kbdEvtValid = true ∧
    ((latched 0x36 7).kbdCmd ≠ (latched 0x36 7).cfg.kbdCmdModel ∧
      (latched 0x36 7).kbdCmd ≠ (latched 0x36 7).cfg.kbdCmdInquiry) := by decide

theorem witness_KeyboardAnswersAsStated :
    fixture.cfg.valid = true ∧ fixture.halted = false ∧ fixture.kbdEvtValid = false ∧
    fixture.timeUs.toNat + fixture.cfg.kbdDwell ≤ (5000 : BitVec 56).toNat ∧
    (5000 : BitVec 56).toNat ≤ (5000 : BitVec 56).toNat := by decide

theorem witness_NoResponseBeforeTheDwell :
    ∃ t, exec (.tick 5007) { latched 0x36 7 with cfg := richConfig } = .next t ∧ .srRx 0x7D ∈ t.out :=
  ⟨_, rfl, by decide⟩

theorem witness_MouseMoveIntegratesMotion :
    fixture.Inv ∧ fixture.halted = false ∧ haltedState.Inv ∧ haltedState.halted = true ∧
    ((1 : BitVec 16) ≠ 0 ∨ (0 : BitVec 16) ≠ 0) ∧ fixture.HoldsRam fixture.cfg.mouseXAddr .word 0 ∧
    fixture.HoldsRam fixture.cfg.mouseYAddr .word 0 ∧ 0x0827 ∉ fixture.cfg.mouseBytes :=
  ⟨fixture_inv, by decide, halted_inv, by decide, by decide, by unfold State.HoldsRam; decide,
   by unfold State.HoldsRam; decide, by decide⟩

theorem witness_BtnSampleReturnsTheLevel : fixture.halted = false ∧ haltedState.halted = true := by decide

theorem witness_OvlDriveSetsTheOverlay : fixture.halted = false ∧ haltedState.halted = true := by decide

theorem witness_ResetOperationSetsOnlyTheOverlay : fixture.halted = false ∧ haltedState.halted = true := by decide

theorem witness_AddressRowsAnswerTheDecoder : fixture.halted = false ∧ fixture.cfg = Config.ref := by decide

end Sys2Proof.Tests
end

section
/-! Proof of the scope statement: the constraints of 00_scope.md section 4. -/

namespace Sys2Proof.Machine

/-- With the three cells inside RAM, only the second byte of a two-byte cell can wrap (R27, R44). -/
theorem mouseBytes_eq_of_lt {c : Config} (hx : c.mouseXAddr < c.ramSize) (hy : c.mouseYAddr < c.ramSize)
    (hn : c.mouseNewAddr < c.ramSize) :
    c.mouseBytes = [c.mouseXAddr, (c.mouseXAddr + 1) % c.ramSize, c.mouseYAddr, (c.mouseYAddr + 1) % c.ramSize,
      c.mouseNewAddr] := by
  simp [Config.mouseBytes, Nat.mod_eq_of_lt, hx, hy, hn]

/-- A step never runs under a configuration that breaks a constraint (U17). -/
theorem step_of_invalid_config {s : State} (h : s.cfg.valid = false) : step s = .refused .badConfig := by
  simp [step, h]

/-- Settles O3: the check and the statement agree constraint by constraint, except that the check reduces
every mouse address; the constraints before that one put the addresses inside RAM. -/
theorem validConfigMeetsTheConstraints : Obligations.ValidConfigMeetsTheConstraints := by
  refine ⟨fun c => ?_, fun s => step_of_invalid_config⟩
  simp only [Config.valid, List.all_cons, List.all_nil, id, Bool.and_eq_true, decide_eq_true_eq, and_true,
    isPowerOfTwo_iff, pairwiseDisjoint_iff, List.all_eq_true, Nat.dvd_iff_mod_eq_zero, Config.ranges,
    and_congr_right_iff]
  intros
  rw [mouseBytes_eq_of_lt] <;> assumption

end Sys2Proof.Machine
end

section
/-! Proofs of the state statements (10_state.md). First the rules of the shared operations that the layer above
lacks, then what one operation does to the invariant and to each field, then the statements. -/

namespace Sys2Proof.Machine

/-! ### What the shared operations keep, field by field -/

/-- A data read keeps every register but `halted`, both arrays, the configuration and the drives. -/
@[simp] theorem memRead_keeps (s : State) (A : Nat) (w : Width) :
    (memRead s A w).1.overlay = s.overlay ∧ (memRead s A w).1.irqPending = s.irqPending ∧
    (memRead s A w).1.irqLevel = s.irqLevel ∧ (memRead s A w).1.kbdCmdValid = s.kbdCmdValid ∧
    (memRead s A w).1.kbdCmd = s.kbdCmd ∧ (memRead s A w).1.kbdCmdTime = s.kbdCmdTime ∧
    (memRead s A w).1.kbdEvtValid = s.kbdEvtValid ∧ (memRead s A w).1.kbdEvt = s.kbdEvt ∧
    (memRead s A w).1.mouseButton = s.mouseButton ∧ (memRead s A w).1.timeUs = s.timeUs ∧
    (memRead s A w).1.ram = s.ram ∧ (memRead s A w).1.rom = s.rom ∧
    (memRead s A w).1.cfg = s.cfg ∧ (memRead s A w).1.drives = s.drives := by
  rw [memRead_frame]
  simp only [and_self]

/-- A fetch keeps the same fields as a data read. -/
@[simp] theorem fetchWord_keeps (s : State) (A : Nat) :
    (fetchWord s A).1.overlay = s.overlay ∧ (fetchWord s A).1.irqPending = s.irqPending ∧
    (fetchWord s A).1.irqLevel = s.irqLevel ∧ (fetchWord s A).1.kbdCmdValid = s.kbdCmdValid ∧
    (fetchWord s A).1.kbdCmd = s.kbdCmd ∧ (fetchWord s A).1.kbdCmdTime = s.kbdCmdTime ∧
    (fetchWord s A).1.kbdEvtValid = s.kbdEvtValid ∧ (fetchWord s A).1.kbdEvt = s.kbdEvt ∧
    (fetchWord s A).1.mouseButton = s.mouseButton ∧ (fetchWord s A).1.timeUs = s.timeUs ∧
    (fetchWord s A).1.ram = s.ram ∧ (fetchWord s A).1.rom = s.rom ∧
    (fetchWord s A).1.cfg = s.cfg ∧ (fetchWord s A).1.drives = s.drives := by
  rw [fetchWord_frame]
  simp only [and_self]

/-- A data write keeps every register but `halted`, ROM and the configuration. -/
@[simp] theorem memWrite_keeps (s : State) (A : Nat) (w : Width) (v : BitVec w.bits) :
    (memWrite s A w v).overlay = s.overlay ∧ (memWrite s A w v).irqPending = s.irqPending ∧
    (memWrite s A w v).irqLevel = s.irqLevel ∧ (memWrite s A w v).kbdCmdValid = s.kbdCmdValid ∧
    (memWrite s A w v).kbdCmd = s.kbdCmd ∧ (memWrite s A w v).kbdCmdTime = s.kbdCmdTime ∧
    (memWrite s A w v).kbdEvtValid = s.kbdEvtValid ∧ (memWrite s A w v).kbdEvt = s.kbdEvt ∧
    (memWrite s A w v).mouseButton = s.mouseButton ∧ (memWrite s A w v).timeUs = s.timeUs ∧
    (memWrite s A w v).rom = s.rom ∧ (memWrite s A w v).cfg = s.cfg := by
  rw [memWrite_frame]
  simp only [and_self]

/-- A keyboard dispatch keeps every field but the event slot's valid bit (R102) and the outputs. -/
@[simp] theorem kbdDispatch_keeps (s : State) (c : Byte) :
    (kbdDispatch s c).overlay = s.overlay ∧ (kbdDispatch s c).irqPending = s.irqPending ∧
    (kbdDispatch s c).irqLevel = s.irqLevel ∧ (kbdDispatch s c).kbdCmdValid = s.kbdCmdValid ∧
    (kbdDispatch s c).kbdCmd = s.kbdCmd ∧ (kbdDispatch s c).kbdCmdTime = s.kbdCmdTime ∧
    (kbdDispatch s c).kbdEvt = s.kbdEvt ∧ (kbdDispatch s c).mouseButton = s.mouseButton ∧
    (kbdDispatch s c).timeUs = s.timeUs ∧ (kbdDispatch s c).halted = s.halted ∧
    (kbdDispatch s c).ram = s.ram ∧ (kbdDispatch s c).rom = s.rom ∧ (kbdDispatch s c).cfg = s.cfg ∧ (kbdDispatch s c).drives = s.drives := by
  rw [kbdDispatch_frame]
  simp only [and_self]

/-- Mouse motion keeps every register, ROM, the configuration and the drives; its effect is on RAM (R110). -/
@[simp] theorem mouseMotion_keeps (s : State) (dx dy : BitVec 16) :
    (mouseMotion s dx dy).overlay = s.overlay ∧ (mouseMotion s dx dy).irqPending = s.irqPending ∧
    (mouseMotion s dx dy).irqLevel = s.irqLevel ∧ (mouseMotion s dx dy).kbdCmdValid = s.kbdCmdValid ∧
    (mouseMotion s dx dy).kbdCmd = s.kbdCmd ∧ (mouseMotion s dx dy).kbdCmdTime = s.kbdCmdTime ∧
    (mouseMotion s dx dy).kbdEvtValid = s.kbdEvtValid ∧ (mouseMotion s dx dy).kbdEvt = s.kbdEvt ∧
    (mouseMotion s dx dy).mouseButton = s.mouseButton ∧ (mouseMotion s dx dy).timeUs = s.timeUs ∧
    (mouseMotion s dx dy).halted = s.halted ∧ (mouseMotion s dx dy).rom = s.rom ∧
    (mouseMotion s dx dy).cfg = s.cfg ∧ (mouseMotion s dx dy).drives = s.drives := by
  rw [mouseMotion_frame]
  simp only [and_self]

/-- Only a byte write of the hook reaches the disc handler, so any other data write keeps the drives (R28, R116). -/
theorem memWrite_drives_of_not_hook {s : State} {A : Nat} {w : Width} (v : BitVec w.bits)
    (h : ¬ (w = .byte ∧ s.regionOf A = .hook)) : (memWrite s A w v).drives = s.drives := by
  simp only [memWrite]
  split
  · rfl
  · split <;> rfl
  · cases w
    · rw [byteOnlyWrite, iochipWrite_frame]
    · rfl
    · rfl
  · rename_i hook
    cases w
    · exact absurd ⟨rfl, hook⟩ h
    · rfl
    · rfl
  · split <;> rfl
  · rfl

/-- What a step that answers a next state did: under a valid configuration it had no operation to run and answered
the state with the entry taken in, or it ran the one issued. -/
theorem step_next {s t : State} (h : step s = .next t) :
    s.cfg.valid = true ∧ ((nextIssue s = .idle t ∨ nextIssue s = .environment t) ∨
      ∃ i u, nextIssue s = .run i u ∧ exec i u = .next t) := by
  unfold step at h
  split at h
  · refine ⟨‹_›, ?_⟩
    split at h
    · cases h; exact .inl (.inl ‹_›)
    · cases h; exact .inl (.inr ‹_›)
    · exact .inr ⟨_, _, ‹_›, h⟩
    · cases h
  · cases h

/-- Mouse motion keeps RAM in canonical form: it is three array writes (R110). -/
theorem mouseMotion_wf {s : State} (dx dy : BitVec 16) (hs : 0 < s.cfg.ramSize)
    (h : Mem.wf s.cfg.ramSize s.ram = true) : Mem.wf s.cfg.ramSize (mouseMotion s dx dy).ram = true :=
  wf_arrayWrite _ _ hs (wf_arrayWrite _ _ hs (wf_arrayWrite _ _ hs h))

/-- The time after a `TICK` is the one told, and that is no earlier than the time before (R103). -/
theorem exec_tick_time {s t : State} {x : Time} (h : exec (.tick x) s = .next t) :
    s.timeUs.toNat ≤ x.toNat ∧ t.timeUs = x := by
  simp only [exec, execTick] at h
  obtain ⟨-, h⟩ := running_next h
  split at h
  · cases h
  · rename_i notBefore
    refine ⟨by simpa using notBefore, ?_⟩
    split at h <;> cases h
    · simp
    · rfl

/-! ### The invariant, one operation at a time

The invariant reads no output, returned value, issued entry or environment answer, and neither `halted` nor
`overlay` nor the event slot; an update of those alone keeps it as it stands. -/

theorem memRead_inv {s : State} (A : Nat) (w : Width) (h : s.Inv) : (memRead s A w).1.Inv := by
  rw [memRead_frame]
  exact h

theorem fetchWord_inv {s : State} (A : Nat) (h : s.Inv) : (fetchWord s A).1.Inv := by
  rw [fetchWord_frame]
  exact h

/-- A data write may change RAM and the drives; both stay in canonical form. -/
theorem memWrite_inv {s : State} (A : Nat) (w : Width) (v : BitVec w.bits) (h : s.Inv) : (memWrite s A w v).Inv := by
  obtain ⟨valid, ram, rom, level, latch, drives⟩ := h
  have ramSize : 0 < s.cfg.ramSize := by have := (Config.valid_sizes valid).1; omega
  have ram' := memWrite_wf s A w v ramSize ram
  have drives' : drivesFit s.cfg (memWrite s A w v).drives = true := by
    obtain e | e := memWrite_drives s A w v <;> rw [e]
    · exact drives
    · exact havocDrives_fit _ _ _ _ drives
  rw [memWrite_frame]
  exact ⟨valid, ram', rom, level, latch, drives'⟩

theorem mouseMotion_inv {s : State} (dx dy : BitVec 16) (h : s.Inv) : (mouseMotion s dx dy).Inv := by
  obtain ⟨valid, ram, rest⟩ := h
  have ramSize : 0 < s.cfg.ramSize := by have := (Config.valid_sizes valid).1; omega
  exact ⟨valid, mouseMotion_wf dx dy ramSize ram, rest⟩

theorem kbdDispatch_inv {s : State} (c : Byte) (h : s.Inv) : (kbdDispatch s c).Inv := by
  rw [kbdDispatch_frame]
  exact h

/-- A later time keeps the latched command's stamp in the past (R23, R101). -/
theorem inv_of_later_time {s : State} {x : Time} (h : s.Inv) (later : s.timeUs.toNat ≤ x.toNat) :
    ({ s with timeUs := x } : State).Inv := by
  obtain ⟨valid, ram, rom, level, latch, drives⟩ := h
  exact ⟨valid, ram, rom, level, fun v => (latch v).trans later, drives⟩

/-- An empty latch has no stamp to bound. -/
theorem inv_of_latch_cleared {s : State} (h : s.Inv) : ({ s with kbdCmdValid := false } : State).Inv := by
  obtain ⟨valid, ram, rom, level, -, drives⟩ := h
  exact ⟨valid, ram, rom, level, fun v => (nomatch v), drives⟩

/-- A command latched now is not stamped in the future (R99). -/
theorem inv_of_latched_now {s : State} (c : Byte) (h : s.Inv) :
    ({ s with kbdCmd := c, kbdCmdTime := s.timeUs, kbdCmdValid := true } : State).Inv := by
  obtain ⟨valid, ram, rom, level, -, drives⟩ := h
  exact ⟨valid, ram, rom, level, fun _ => Nat.le_refl _, drives⟩

/-- A new mask with its own highest level keeps the cached level right (R18, R93). -/
theorem inv_of_highest {s : State} {p : BitVec 8} {l : BitVec 3} (h : s.Inv) (hl : l = highestPending p) :
    ({ s with irqPending := p, irqLevel := l } : State).Inv := by
  obtain ⟨valid, ram, rom, -, latch, drives⟩ := h
  exact ⟨valid, ram, rom, hl, latch, drives⟩

/-- Every operation that answers a next state keeps the invariant. -/
theorem exec_keeps_inv : ∀ i s t, exec i s = .next t → s.Inv → t.Inv := by
  apply exec_induction
  case read => exact fun s w A _ h => memRead_inv A w h
  case write => exact fun s w A v _ h => memWrite_inv A w v h
  case fetch => exact fun s A _ h => fetchWord_inv A h
  case motion =>
    intro s dx dy b _ h
    split
    · exact mouseMotion_inv dx dy h
    · exact h
  case tick =>
    intro s x _ later h
    have told : ({ beginOp s with timeUs := x } : State).Inv := inv_of_later_time h later
    split
    · exact inv_of_latch_cleared (kbdDispatch_inv _ told)
    · exact told
  case raise =>
    intro s x _ h
    have ⟨_, _, _, level, _, _⟩ := h
    have moved := highestPending_setPending s.irqPending x
    rw [← level] at moved
    split <;> rename_i rises
    · exact inv_of_highest (s := beginOp s) h (moved.trans (if_pos rises)).symm
    · exact inv_of_highest (s := beginOp s) h (moved.trans (if_neg rises)).symm
  case lower => exact fun s x _ h => inv_of_highest (s := beginOp s) h rfl
  case cmd =>
    intro s c _ h
    split <;> exact inv_of_latched_now c h
  case key =>
    intro s c p _ h
    split <;> exact h
  case ack => exact fun _ _ _ h => h
  case reset => exact fun _ _ h => h
  case sample => exact fun _ _ h => h
  case drive => exact fun _ _ _ h => h
  case address => exact fun _ _ _ _ _ h => h

/-- Settles O4: a step takes in an entry, which touches only the ports and the environment's answers, or runs one
operation, and every operation keeps the invariant. -/
theorem everyStepKeepsInvariant : Obligations.EveryStepKeepsInvariant := by
  intro s t inv h
  obtain ⟨-, quiet | ⟨i, u, issue, ran⟩⟩ := step_next h
  · rw [nextIssue_quiet quiet]
    exact inv
  · have taken : u.Inv := by
      rw [nextIssue_frame issue]
      exact inv
    exact exec_keeps_inv i u t ran taken

/-! ### What an operation leaves unchanged -/

/-- No operation writes ROM or the configuration (R26, R155). -/
theorem exec_keeps_rom_cfg : ∀ i s t, exec i s = .next t → t.rom = s.rom ∧ t.cfg = s.cfg := by
  apply exec_induction
  case motion | tick | raise | cmd | key => intros; split <;> simp
  case read | write | fetch | ack | reset | lower | sample | drive | address => simp

/-- Settles O32: ROM unchanged reads unchanged at every offset. -/
theorem romIsReadOnly : Obligations.RomIsReadOnly := by
  intro i s t h
  obtain ⟨rom, cfg⟩ := exec_keeps_rom_cfg i s t h
  exact ⟨fun j => by simp only [State.romByte, rom], rom, cfg⟩

/-- The two operations that write RAM are the premises' own, and the drives change in the disc handler alone. -/
theorem exec_ram_drives_writers : ∀ i s t, exec i s = .next t →
    ((∀ w A v, i ≠ writeOp w A v) → (∀ dx dy b, i ≠ .mouseMove dx dy b) → t.ram = s.ram) ∧
    ((∀ A v, ¬ (i = .wrB A v ∧ s.regionOf A = .hook)) → t.drives = s.drives) := by
  apply exec_induction
  case write =>
    intro s w A v _
    refine ⟨fun notWrite => absurd rfl (notWrite w A v), fun notHook => ?_⟩
    refine memWrite_drives_of_not_hook v ?_
    rintro ⟨rfl, hook⟩
    exact notHook A v ⟨rfl, hook⟩
  case motion =>
    intro s dx dy b _
    refine ⟨fun _ notMotion => absurd rfl (notMotion dx dy b), fun _ => ?_⟩
    split <;> simp
  case tick | raise | cmd | key => intros; split <;> simp
  case read | fetch | ack | reset | lower | sample | drive | address => simp

/-- Settles O33: an array unchanged reads unchanged at every offset. -/
theorem ramChangesOnlyByWritesAndMouse : Obligations.RamChangesOnlyByWritesAndMouse := by
  intro i s t h
  obtain ⟨ram, drives⟩ := exec_ram_drives_writers i s t h
  exact ⟨fun notWrite notMotion j => by simp only [State.ramByte, ram notWrite notMotion], drives⟩

/-- Settles O34: by cases on the operation; a clause whose register the operation does write has a premise that
rules the operation out. -/
theorem registersHaveOnlyTheirWriters : Obligations.RegistersHaveOnlyTheirWriters := by
  unfold Obligations.RegistersHaveOnlyTheirWriters
  apply exec_induction
  case motion | tick | raise | cmd | key => intros; split <;> simp
  case reset | lower | drive => simp
  case read | write | fetch | ack | sample | address => simp

/-- Settles O35: only a `TICK` writes the time, and it refuses an earlier one. -/
theorem timeNeverDecreases : Obligations.TimeNeverDecreases := by
  intro i s t h
  by_cases tick : ∃ x, i = .tick x
  · obtain ⟨x, rfl⟩ := tick
    obtain ⟨later, told⟩ := exec_tick_time h
    refine ⟨told ▸ later, ?_⟩
    rintro y ⟨⟩
    exact told
  · have notTick : ∀ x, i ≠ .tick x := fun x e => tick ⟨x, e⟩
    obtain ⟨-, -, -, -, -, time⟩ := registersHaveOnlyTheirWriters i s t h
    exact ⟨(congrArg BitVec.toNat (time notTick)).ge, fun x e => absurd e (notTick x)⟩

end Sys2Proof.Machine
end

section
/-! Proofs of the memory statements (20_memory.md). First the rules these statements share: what the region
functions answer, what each bus operation does in each region, what an array access reads and writes. -/

namespace Sys2Proof.Machine

/-! ### The region functions -/

/-- The number of the region's range in `Config.ranges`; `UNMAPPED` has none. -/
def Region.slot : Region → Option Nat
  | .ram => some 0
  | .rom => some 1
  | .iochip => some 2
  | .hook => some 3
  | .extra k => some (k + 4)
  | .unmapped => none

theorem Region.slot_injective : Function.Injective Region.slot := by
  intro r q h
  cases r <;> cases q <;> simp_all [Region.slot]

/-- The window search is the library's index search, numbered from `k`. -/
theorem findExtra_eq_findIdx? (a : Nat) (xs : List ExtraWindow) (k : Nat) :
    findExtra a xs k = (xs.findIdx? fun x => inWindow x.base x.size a).map (· + k) := by
  induction xs generalizing k with
  | nil => rfl
  | cons x xs ih =>
    rw [findExtra, List.findIdx?_cons, ih]
    split
    · simp
    · simp [Function.comp_def, Nat.add_assoc, Nat.add_comm 1]

/-- The region function answers the first range of R8's list that holds the address. -/
theorem region_slot (c : Config) (a : Nat) :
    (region c a).slot = c.ranges.findIdx? fun r => inWindow r.1 r.2 a := by
  have ram : inWindow 0 c.ramWindow a = decide (a < c.ramWindow) := by simp [inWindow]
  have hook : inWindow c.discHookAddr 1 a = decide (a = c.discHookAddr) := by
    simp only [inWindow, ← Bool.decide_and]
    exact decide_eq_decide.mpr (by omega)
  simp only [Config.ranges, List.cons_append, List.nil_append, List.findIdx?_cons, List.findIdx?_map,
    ram, hook, decide_eq_true_eq, region, findExtra_eq_findIdx?]
  split
  · rfl
  split
  · rfl
  split
  · rfl
  split
  · rfl
  · simp only [Function.comp_def, Option.map_map, Nat.add_zero, Option.map_id']
    cases c.extraWindows.findIdx? fun x => inWindow x.base x.size a <;> rfl

/-- The ranges of a valid configuration share no address (R8). -/
theorem Config.valid_ranges_disjoint {c : Config} (valid : c.valid = true) : c.ranges.Pairwise
    (fun r q => ∀ a, ¬ ((r.1 ≤ a ∧ a < r.1 + r.2) ∧ (q.1 ≤ a ∧ a < q.1 + q.2))) := by
  obtain ⟨-, -, -, -, -, -, -, -, -, -, -, disjoint, -⟩ := (validConfigMeetsTheConstraints.1 c).mp valid
  exact disjoint

/-- Under a valid configuration at most one range holds an address, so the first one is the only one. -/
theorem region_eq_iff_of_slot {c : Config} (valid : c.valid = true) (a : Nat) {r : Region} {n : Nat}
    (slot : r.slot = some n) : region c a = r ↔ ∃ q, c.ranges[n]? = some q ∧ q.1 ≤ a ∧ a < q.1 + q.2 := by
  rw [← Region.slot_injective.eq_iff, slot, region_slot, List.findIdx?_eq_some_iff_getElem]
  constructor
  · rintro ⟨h, holds, -⟩
    exact ⟨_, List.getElem?_eq_getElem h, (inWindow_iff ..).mp holds⟩
  · rintro ⟨q, at_n, holds⟩
    obtain ⟨h, rfl⟩ := List.getElem?_eq_some_iff.mp at_n
    refine ⟨h, (inWindow_iff ..).mpr holds, fun j before => ?_⟩
    rw [inWindow_iff]
    have disjoint := List.pairwise_iff_getElem.mp (Config.valid_ranges_disjoint valid) j n (by omega) h before a
    exact fun earlier => disjoint ⟨earlier, holds⟩

/-- An address is `UNMAPPED` exactly when no range holds it; this needs no valid configuration. -/
theorem region_eq_unmapped_iff (c : Config) (a : Nat) :
    region c a = .unmapped ↔ ∀ q ∈ c.ranges, ¬ (q.1 ≤ a ∧ a < q.1 + q.2) := by
  rw [← Region.slot_injective.eq_iff, region_slot, Region.slot, List.findIdx?_eq_none_iff]
  simp only [← inWindow_iff, Bool.not_eq_true]

/-- Settles O13: each region is one range of R8's list, and `UNMAPPED` is none of them. -/
theorem regionIsTheRangeTest : Obligations.RegionIsTheRangeTest := by
  intro c a valid
  have oneAddress : c.discHookAddr ≤ a ∧ a < c.discHookAddr + 1 ↔ a = c.discHookAddr := by omega
  refine ⟨?_, ?_, ?_, ?_, fun k => ?_, ?_⟩
  · simpa [Config.ranges] using region_eq_iff_of_slot valid a (r := .ram) rfl
  · simpa [Config.ranges] using region_eq_iff_of_slot valid a (r := .rom) rfl
  · simpa [Config.ranges] using region_eq_iff_of_slot valid a (r := .iochip) rfl
  · rw [← oneAddress]
    simpa [Config.ranges] using region_eq_iff_of_slot valid a (r := .hook) rfl
  · simpa [Config.ranges] using region_eq_iff_of_slot valid a (r := .extra k) rfl
  · rw [region_eq_unmapped_iff, ne_eq, ← oneAddress]
    simp [Config.ranges]

/-! ### Array offsets and array access -/

/-- Settles O14: masking with a power of two less one is the remainder, and R8 asks the sizes to be powers of two. -/
theorem offsetsAreTheMasks : Obligations.OffsetsAreTheMasks := by
  intro c A valid
  obtain ⟨-, ⟨ramBits, ramSize⟩, -, ⟨romBits, romSize⟩, -⟩ := (validConfigMeetsTheConstraints.1 c).mp valid
  simp only [busAddr, ramOffset, romOffset, aliasOffset, subreg, ramSize, romSize, Nat.and_two_pow_sub_one_eq_mod,
    and_self]

/-- `RamRd` gives the value that RAM holds (R44). -/
theorem holdsRam_ramRead (s : State) (i : Nat) (w : Width) : s.HoldsRam i w (ramRead s i w) :=
  fun k hk => lane_assemble w _ k hk

/-- `RomRd` gives the value that ROM holds (R45). -/
theorem holdsRom_romRead (s : State) (i : Nat) (w : Width) : s.HoldsRom i w (romRead s i w) :=
  fun k hk => lane_assemble w _ k hk

/-- No access is longer than RAM (R8). -/
theorem Config.bytes_le_ramSize {c : Config} (valid : c.valid = true) (w : Width) : w.bytes ≤ c.ramSize := by
  have widest : w.bytes ≤ 4 := by cases w <;> decide
  exact widest.trans (Config.valid_sizes valid).1

/-- `RamWr` makes RAM hold the value (R44). -/
theorem holdsRam_ramWrite {s : State} (inv : s.Inv) (i : Nat) (w : Width) (v : BitVec w.bits) :
    (ramWrite s i w v).HoldsRam i w v := by
  obtain ⟨valid, ram, -⟩ := inv
  exact fun k hk => (read_arrayWrite_same w v (Config.bytes_le_ramSize valid w) ram hk).symm

/-- `RamWr` leaves every byte alone that its offsets do not reach (R44). -/
theorem ramByte_ramWrite_other (s : State) {i j : Nat} (w : Width) (v : BitVec w.bits)
    (apart : ∀ k, k < w.bytes → j ≠ (i + k) % s.cfg.ramSize) : (ramWrite s i w v).ramByte j = s.ramByte j :=
  read_arrayWrite_other w v apart

/-- `RamRd` after `RamWr` of the same offset and width gives the value written. -/
theorem ramRead_ramWrite_same {s : State} (inv : s.Inv) (i : Nat) (w : Width) (v : BitVec w.bits) :
    ramRead (ramWrite s i w v) i w = v :=
  calc ramRead (ramWrite s i w v) i w
    _ = assemble w (lane w v) := assemble_congr w fun k hk => (holdsRam_ramWrite inv i w v k hk).symm
    _ = v := assemble_lane w v

/-- Settles O15: a read assembles the bytes at the wrapped offsets, a write stores the lanes there. -/
theorem arrayAccessIsBigEndianAndWraps : Obligations.ArrayAccessIsBigEndianAndWraps := by
  intro s i w inv
  exact ⟨holdsRam_ramRead s i w, holdsRom_romRead s i w,
    fun v => ⟨holdsRam_ramWrite inv i w v, fun j apart => ramByte_ramWrite_other s w v apart⟩⟩

/-! ### The bus operations of a running block, by region -/

/-- The fetch as an effect from a running state, as `exec_readOp` gives the reads. -/
theorem exec_ifW (A : Nat) (s : State) :
    exec (.ifW A) s = running s fun s => .next (finishRead .word (fetchWord s A)) := rfl

section Running

variable {s : State} (run : s.halted = false)
include run

theorem exec_readOp_of_running (w : Width) (A : Nat) :
    exec (readOp w A) s = .next (finishRead w (memRead (beginOp s) A w)) := by
  rw [exec_readOp, running_of_running run]

theorem exec_writeOp_of_running (w : Width) (A : Nat) (v : BitVec w.bits) :
    exec (writeOp w A v) s = .next (memWrite (beginOp s) A w v) := by
  rw [exec_writeOp, running_of_running run]

theorem exec_ifW_of_running (A : Nat) : exec (.ifW A) s = .next (finishRead .word (fetchWord (beginOp s) A)) := by
  rw [exec_ifW, running_of_running run]

end Running

/-! One equation per region and operation; the region is the one the masked address decides (R38). -/

section ByRegion

variable {s : State} {A : Nat} {w : Width} {k : Nat}

theorem memRead_of_ram (h : s.regionOf A = .ram) :
    memRead s A w = (s, some (ramRead s (ramOffset s.cfg (busAddr s.cfg A)) w)) := by
  rw [State.regionOf] at h
  simp only [memRead, h]

theorem memRead_of_rom (h : s.regionOf A = .rom) :
    memRead s A w = (s, some (romRead s (romOffset s.cfg (busAddr s.cfg A)) w)) := by
  rw [State.regionOf] at h
  simp only [memRead, h]

theorem memRead_of_iochip (h : s.regionOf A = .iochip) : memRead s A w =
    byteOnlyRead s (busAddr s.cfg A) w .read (iochipRead s (busAddr s.cfg A)) := by
  rw [State.regionOf] at h
  simp only [memRead, h]

theorem memRead_of_hook (h : s.regionOf A = .hook) : memRead s A w =
    byteOnlyRead s (busAddr s.cfg A) w .read (logWarning s (.unmappedSubreg (busAddr s.cfg A) .read), 0) := by
  rw [State.regionOf] at h
  simp only [memRead, h]

theorem memRead_of_extra (h : s.regionOf A = .extra k) (has : extraHas s.cfg k w = true) :
    memRead s A w = (logWarning s (.unmappedSubreg (busAddr s.cfg A) .read), some 0) := by
  rw [State.regionOf] at h
  simp only [memRead, h, has, if_true]

theorem memRead_of_unmapped (h : s.regionOf A = .unmapped) :
    memRead s A w = (logWarning s (.unmappedRead (busAddr s.cfg A) w), some 0) := by
  rw [State.regionOf] at h
  simp only [memRead, h]

theorem memWrite_of_ram (h : s.regionOf A = .ram) (v : BitVec w.bits) :
    memWrite s A w v = ramWrite s (ramOffset s.cfg (busAddr s.cfg A)) w v := by
  rw [State.regionOf] at h
  simp only [memWrite, h]

theorem memWrite_of_rom_drop (h : s.regionOf A = .rom) (drop : s.cfg.romWritePolicy = .drop) (v : BitVec w.bits) :
    memWrite s A w v = logWarning s (.romWriteDropped (busAddr s.cfg A) w v.toNat) := by
  rw [State.regionOf] at h
  simp only [memWrite, h, drop]

theorem memWrite_of_iochip (h : s.regionOf A = .iochip) (v : BitVec w.bits) :
    memWrite s A w v = byteOnlyWrite s (busAddr s.cfg A) w v (iochipWrite s (busAddr s.cfg A)) := by
  rw [State.regionOf] at h
  simp only [memWrite, h]

theorem memWrite_of_extra (h : s.regionOf A = .extra k) (has : extraHas s.cfg k w = true) (v : BitVec w.bits) :
    memWrite s A w v = logWarning s (.unmappedSubreg (busAddr s.cfg A) .write) := by
  rw [State.regionOf] at h
  simp only [memWrite, h, has, if_true]

theorem memWrite_of_unmapped (h : s.regionOf A = .unmapped) (v : BitVec w.bits) :
    memWrite s A w v = logWarning s (.unmappedWrite (busAddr s.cfg A) w v.toNat) := by
  rw [State.regionOf] at h
  simp only [memWrite, h]

/-- With the overlay off, or at and above `OVL_SIZE`, a fetch goes by the data decoder's region (R39). -/
theorem fetchRegion_of_plain (plain : s.overlay = false ∨ s.cfg.ovlSize ≤ busAddr s.cfg A) :
    fetchRegion s.cfg s.overlay (busAddr s.cfg A) = .plain (s.regionOf A) := by
  refine if_neg ?_
  simpa [← Bool.not_eq_true, imp_iff_not_or] using plain

/-- Below `OVL_SIZE` under the overlay a fetch reads ROM (R39). -/
theorem fetchWord_of_alias (overlay : s.overlay = true) (low : busAddr s.cfg A < s.cfg.ovlSize) :
    fetchWord s A = (s, some (romRead s (aliasOffset s.cfg (busAddr s.cfg A)) .word)) := by
  simp only [fetchWord, fetchRegion, overlay, low, decide_true, Bool.and_self, if_true]

section PlainFetch

variable (plain : s.overlay = false ∨ s.cfg.ovlSize ≤ busAddr s.cfg A)
include plain

theorem fetchWord_of_ram (h : s.regionOf A = .ram) :
    fetchWord s A = (s, some (ramRead s (ramOffset s.cfg (busAddr s.cfg A)) .word)) := by
  simp only [fetchWord, fetchRegion_of_plain plain, h]

theorem fetchWord_of_rom (h : s.regionOf A = .rom) :
    fetchWord s A = (s, some (romRead s (romOffset s.cfg (busAddr s.cfg A)) .word)) := by
  simp only [fetchWord, fetchRegion_of_plain plain, h]

theorem fetchWord_of_unmapped (h : s.regionOf A = .unmapped) :
    fetchWord s A = (logWarning s (.unmappedRead (busAddr s.cfg A) .word), some 0) := by
  simp only [fetchWord, fetchRegion_of_plain plain, h]

theorem fetchWord_of_extra (h : s.regionOf A = .extra k) (has : extraHas s.cfg k .word = true) :
    fetchWord s A = (logWarning s (.unmappedSubreg (busAddr s.cfg A) .fetch), some 0) := by
  simp only [fetchWord, fetchRegion_of_plain plain, h, has, if_true]

/-- A window without word width has no word to fetch (R37, R125). -/
theorem fetchWord_of_no_word (h : s.regionOf A = .iochip ∨ s.regionOf A = .hook ∨
    ∃ k, s.regionOf A = .extra k ∧ extraHas s.cfg k .word = false) :
    fetchWord s A = (raiseFatal s (.busNoSemantics (busAddr s.cfg A) .word .fetch), none) := by
  obtain h | h | ⟨k, h, lacks⟩ := h
  · simp only [fetchWord, fetchRegion_of_plain plain, h]
  · simp only [fetchWord, fetchRegion_of_plain plain, h]
  · simp only [fetchWord, fetchRegion_of_plain plain, h, lacks, Bool.false_eq_true, if_false]

end PlainFetch

end ByRegion

/-! ### Data reads -/

/-- Settles O16: the read of either array hands back the value the array holds at the masked offset. -/
theorem readsOfRamAndRomComplete : Obligations.ReadsOfRamAndRomComplete := by
  intro s w A run
  rw [exec_readOp_of_running run]
  constructor <;> intro region
  · rw [memRead_of_ram (s := beginOp s) region]
    exact ⟨_, holdsRam_ramRead s _ w, rfl⟩
  · rw [memRead_of_rom (s := beginOp s) region]
    exact ⟨_, holdsRom_romRead s _ w, rfl⟩

/-- A sub-register the chip implements answers what `ENV.DEV` fixed, else a free byte (R41, R74). -/
theorem iochipRead_of_implemented {s : State} {a : Nat} (h : subreg s.cfg a ∉ s.cfg.iochipHoles) :
    iochipRead s a = devRead s (subreg s.cfg a) :=
  if_neg h

/-- A hole of the chip answers 0 and logs `W3` (R129, entry 10). -/
theorem iochipRead_of_hole {s : State} {a : Nat} (h : subreg s.cfg a ∈ s.cfg.iochipHoles) :
    iochipRead s a = (logWarning (emit s (.devRead (subreg s.cfg a) 0)) (.unmappedSubreg a .read), 0) :=
  if_pos h

/-- Settles O17: the byte read of the window is the chip's answer for the sub-register, implemented or a hole. -/
theorem deviceReadAnswersTheChip : Obligations.DeviceReadAnswersTheChip := by
  intro s A run region r
  have read := exec_readOp_of_running run .byte A
  rw [memRead_of_iochip (s := beginOp s) region] at read
  constructor <;> intro h
  · rw [iochipRead_of_implemented (s := beginOp s) (a := busAddr (beginOp s).cfg A) h] at read
    refine ⟨s.envDev.getD (Config.freeDevAnswer s.draws), ?_, read⟩
    intro x fixed
    rw [fixed, Option.getD_some]
  · rw [iochipRead_of_hole (s := beginOp s) (a := busAddr (beginOp s).cfg A) h] at read
    exact read

/-- Settles O18: each tolerated read is one log and the value 0. -/
theorem toleratedReadsReturnZero : Obligations.ToleratedReadsReturnZero := by
  intro s w A run
  rw [exec_readOp_of_running run]
  refine ⟨fun region => ?_, fun region byte => ?_, fun k region has => ?_⟩
  · rw [memRead_of_unmapped (s := beginOp s) region]
    rfl
  · subst byte
    rw [memRead_of_hook (s := beginOp s) region]
    rfl
  · rw [memRead_of_extra (s := beginOp s) region has]
    rfl

/-! ### Fetches -/

/-- Settles O20: below `OVL_SIZE` under the overlay the fetch reads ROM, elsewhere the array of the data decoder. -/
theorem fetchReadsTheOverlaidMap : Obligations.FetchReadsTheOverlaidMap := by
  intro s A run a
  rw [exec_ifW_of_running run]
  refine ⟨fun overlay low => ?_, fun plain => ⟨fun region => ?_, fun region => ?_⟩⟩
  · rw [fetchWord_of_alias (s := beginOp s) overlay low]
    exact ⟨_, holdsRom_romRead s _ .word, rfl⟩
  · rw [fetchWord_of_ram (s := beginOp s) plain region]
    exact ⟨_, holdsRam_ramRead s _ .word, rfl⟩
  · rw [fetchWord_of_rom (s := beginOp s) plain region]
    exact ⟨_, holdsRom_romRead s _ .word, rfl⟩

/-- Settles O21: outside both arrays the fetch is tolerated with a log, or the region has no word to fetch. -/
theorem fetchElsewhereIsToleratedOrHalts : Obligations.FetchElsewhereIsToleratedOrHalts := by
  intro s A run a plain
  rw [exec_ifW_of_running run]
  refine ⟨fun region => ?_, fun k region has => ?_, fun noWord => ?_⟩
  · rw [fetchWord_of_unmapped (s := beginOp s) plain region]
    rfl
  · rw [fetchWord_of_extra (s := beginOp s) plain region has]
    rfl
  · rw [fetchWord_of_no_word (s := beginOp s) plain noWord]
    rfl

/-! ### Data writes -/

/-- Settles O22: a write to RAM is the array write at the masked offset. -/
theorem ramWritesStoreTheBytes : Obligations.RamWritesStoreTheBytes := by
  intro s w A v inv run region
  rw [exec_writeOp_of_running run, memWrite_of_ram (s := beginOp s) region]
  exact ⟨_, rfl, rfl, holdsRam_ramWrite (s := beginOp s) inv _ w v,
    fun j apart => ramByte_ramWrite_other _ w v apart⟩

/-- Settles O24: each tolerated write is one log. -/
theorem toleratedWritesAreDropped : Obligations.ToleratedWritesAreDropped := by
  intro s w A v run
  rw [exec_writeOp_of_running run]
  refine ⟨fun region => ?_, fun region drop => ?_, fun k region has => ?_⟩
  · rw [memWrite_of_unmapped (s := beginOp s) region]
    rfl
  · rw [memWrite_of_rom_drop (s := beginOp s) region drop]
    rfl
  · rw [memWrite_of_extra (s := beginOp s) region has]
    rfl

/-- The chip's `dev_write` stands alone for an implemented sub-register (R41). -/
theorem iochipWrite_of_implemented {s : State} {a : Nat} (h : subreg s.cfg a ∉ s.cfg.iochipHoles) (v : Byte) :
    iochipWrite s a v = emit s (.devWrite (subreg s.cfg a) v) :=
  if_neg h

/-- A hole of the chip logs `W3` after the `dev_write` (R129, entry 10). -/
theorem iochipWrite_of_hole {s : State} {a : Nat} (h : subreg s.cfg a ∈ s.cfg.iochipHoles) (v : Byte) :
    iochipWrite s a v = logWarning (emit s (.devWrite (subreg s.cfg a) v)) (.unmappedSubreg a .write) :=
  if_pos h

/-- Settles O26: the byte write of the window is the chip's event for the sub-register, implemented or a hole. -/
theorem deviceWriteReachesTheChip : Obligations.DeviceWriteReachesTheChip := by
  intro s A v run region r
  have write := exec_writeOp_of_running run (w := .byte) A v
  rw [memWrite_of_iochip (s := beginOp s) region, byteOnlyWrite] at write
  refine ⟨fun implemented => write.trans ?_, fun hole => write.trans ?_⟩
  · exact congrArg _ (iochipWrite_of_implemented (s := beginOp s) implemented v)
  · exact congrArg _ (iochipWrite_of_hole (s := beginOp s) hole v)

/-! ### Laws of reads -/

/-- Settles O30: the store leaves the decoders and ROM as they are, so the fetch goes where it went before; in RAM it
finds the word stored there. -/
theorem fetchSeesTheStoredWord : Obligations.FetchSeesTheStoredWord := by
  intro s A v inv run region
  have write := exec_writeOp_of_running run (w := .word) A v
  rw [memWrite_of_ram (s := beginOp s) region] at write
  refine ⟨_, write, fun plain => ⟨_, exec_ifW_of_running (s := ramWrite ..) run A, ?_⟩,
    fun overlay low => ⟨_, _, exec_ifW_of_running run A, exec_ifW_of_running (s := ramWrite ..) run A, ?_⟩⟩
  · rw [fetchWord_of_ram (s := beginOp (ramWrite ..)) plain region]
    exact congrArg (some ∘ RetVal.word) (ramRead_ramWrite_same (s := beginOp s) inv _ .word v)
  · rw [fetchWord_of_alias (s := beginOp (ramWrite ..)) overlay low, fetchWord_of_alias (s := beginOp s) overlay low]
    rfl

/-- Outside the I/O chip window a data read changes nothing but `halted` and the outputs. -/
theorem memRead_frame_of_not_iochip {s : State} {A : Nat} (w : Width) (h : s.regionOf A ≠ .iochip) :
    (memRead s A w).1 = { s with halted := (memRead s A w).1.halted, out := (memRead s A w).1.out } := by
  simp only [memRead]
  split
  · rfl
  · rfl
  · exact absurd (by assumption) h
  · cases w <;> rfl
  · split <;> rfl
  · rfl

/-- An operation that changed nothing but the outputs, made again, starts from the same and answers the same. -/
theorem running_again {f : State → Host.Outcome State Fault Refusal} {s t : State} (h : running s f = .next t)
    (same : t = { s with out := t.out, ret := t.ret }) : running t f = .next t := by
  obtain ⟨run, effect⟩ := running_next h
  have restart : beginOp t = beginOp s := by rw [same]; rfl
  rw [running_of_running (by rw [same]; exact run), restart, effect]

/-- A read that kept all but `halted` and the outputs, and did not halt, ends in a change of the outputs alone. -/
theorem finishRead_of_frame {s : State} {w : Width} {r : ReadResult w} (run : s.halted = false)
    (done : r.1.halted = false) (frame : r.1 = { beginOp s with halted := r.1.halted, out := r.1.out }) :
    finishRead w r = { s with out := (finishRead w r).out, ret := (finishRead w r).ret } := by
  rw [done, ← run] at frame
  exact congrArg (fun u : State => { u with ret := r.2.map (retOf w) }) frame

/-- Settles O31: the access changes at most `halted` besides the outputs, and it did not halt, so made again it starts
from the same state. -/
theorem plainReadsAreIdempotent : Obligations.PlainReadsAreIdempotent := by
  rintro i s t A (rfl | ⟨w, rfl⟩) region h done
  · rw [exec_ifW] at h ⊢
    obtain ⟨run, effect⟩ := running_next h
    cases effect
    have same := finishRead_of_frame run done (fetchWord_frame (beginOp s) A)
    exact ⟨same, running_again h same⟩
  · rw [exec_readOp] at h ⊢
    obtain ⟨run, effect⟩ := running_next h
    cases effect
    have same := finishRead_of_frame run done (memRead_frame_of_not_iochip (s := beginOp s) w region)
    exact ⟨same, running_again h same⟩

end Sys2Proof.Machine
end

section
/-! Proofs of the encoding statements (30_encoding.md). First how fields are put together and taken apart, then the
two round trips, then the table's rows, the address rows, and the step on an issued entry. -/

namespace Sys2Proof.Machine

/-! ### Fields put together and taken apart -/

/-- A field whose high part is known is that part above its low part. -/
theorem append_low_of_high {m n : Nat} {x : BitVec (m + n)} {p : BitVec m} (high : x.extractLsb' n m = p) :
    p ++ x.extractLsb' 0 n = x := by
  rw [← high, BitVec.extractLsb'_append_extractLsb']

/-- A flag operand, read as a bit and written back as a one-bit field. -/
theorem ofBool_getLsbD {n : Nat} (x : BitVec n) (i : Nat) : BitVec.ofBool (x.getLsbD i) = x.extractLsb' i 1 := by
  have bit : ∀ b : BitVec 1, BitVec.ofBool (b == 1#1) = b := by decide
  rw [BitVec.getLsbD_eq_extractLsb', bit]

/-- A flag operand, written as a one-bit field and read back as a bit. -/
theorem getLsbD_of_extractLsb' {n i : Nat} {x : BitVec n} {b : Bool} (h : x.extractLsb' i 1 = BitVec.ofBool b) :
    x.getLsbD i = b := by
  have bit : ∀ b : Bool, (BitVec.ofBool b == 1#1) = b := by decide
  rw [BitVec.getLsbD_eq_extractLsb', h, bit]

/-- The bits above a zero-extended operand pass the test of R59. -/
theorem high_unused (m : Nat) {n : Nat} (v : BitVec n) : ((0#m ++ v).extractLsb' n m == 0#m) = true :=
  beq_iff_eq.mpr BitVec.extractLsb'_append_eq_left

/-- The parts of field `D` of `KBD.KEY` (R60): the bits above the direction bit, that bit, bit 7 and the scancode. -/
theorem keyField_parts (sc : BitVec 7) (pressed : Bool) :
    (0#23 ++ BitVec.ofBool pressed ++ 0#1 ++ sc).extractLsb' 9 23 = 0#23 ∧
    (0#23 ++ BitVec.ofBool pressed ++ 0#1 ++ sc).extractLsb' 8 1 = BitVec.ofBool pressed ∧
    (0#23 ++ BitVec.ofBool pressed ++ 0#1 ++ sc).extractLsb' 7 1 = 0#1 ∧
    (0#23 ++ BitVec.ofBool pressed ++ 0#1 ++ sc).extractLsb' 0 7 = sc := by
  refine ⟨?_, ?_, BitVec.extractLsb'_append_eq_of_le (by decide) |>.trans BitVec.extractLsb'_append_eq_right,
    BitVec.extractLsb'_append_eq_right⟩
  · rw [BitVec.extractLsb'_append_eq_of_le (by decide), BitVec.extractLsb'_append_eq_of_le (by decide)]
    exact BitVec.extractLsb'_append_eq_left
  · rw [BitVec.extractLsb'_append_eq_of_le (by decide), BitVec.extractLsb'_append_eq_of_le (by decide)]
    exact BitVec.extractLsb'_append_eq_right

/-- Field `D` of `KBD.KEY` from its parts. -/
theorem keyField_of_parts {D : BitVec 32} (high : D.extractLsb' 9 23 = 0#23) (bit7 : D.extractLsb' 7 1 = 0#1) :
    0#23 ++ BitVec.ofBool (D.getLsbD 8) ++ 0#1 ++ D.extractLsb' 0 7 = D := by
  have above8 : D.extractLsb' 9 23 ++ D.extractLsb' 8 1 = D.extractLsb' 8 24 :=
    BitVec.extractLsb'_append_extractLsb'_eq_extractLsb' rfl
  have above7 : D.extractLsb' 8 24 ++ D.extractLsb' 7 1 = D.extractLsb' 7 25 :=
    BitVec.extractLsb'_append_extractLsb'_eq_extractLsb' rfl
  have above : D.extractLsb' 7 25 = 0#23 ++ BitVec.ofBool (D.getLsbD 8) ++ 0#1 := by
    rw [← above7, ← above8, high, bit7, ofBool_getLsbD]
  exact append_low_of_high (m := 25) (n := 7) above

/-- An address that fits field `A` is read back from it (R57). -/
theorem toNat_ofNat_of_fitsField {a : Nat} (h : fitsField a = true) : (BitVec.ofNat 24 a).toNat = a :=
  Nat.mod_eq_of_lt (of_decide_eq_true h)

/-- An address read from field `A` fits it. -/
theorem fitsField_aField (w : BitVec 64) : fitsField (aField w).toNat = true :=
  decide_eq_true (aField w).isLt

/-- Field `A` is put back from the address read from it. -/
theorem ofNat_toNat_aField (w : BitVec 64) : BitVec.ofNat 24 (aField w).toNat = aField w :=
  BitVec.eq_of_toNat_eq (toNat_ofNat_of_fitsField (fitsField_aField w))

/-- The converse of `ifUnusedZero_ok`. -/
theorem ifUnusedZero_of_zero {w : BitVec 64} {u : Bool} {i j : Instr} (zero : u = true) (same : i = j) :
    ifUnusedZero w u i = .ok j := by
  rw [ifUnusedZero, if_pos zero, same]

/-- An operand that fills a field from bit 0, zeros above it, is read back, and the bits above it pass the test. -/
theorem ifUnusedZero_of_extended {w : BitVec 64} {m n : Nat} (op : BitVec n → Instr) (v : BitVec n) :
    ifUnusedZero w ((0#m ++ v).extractLsb' n m == 0#m) (op ((0#m ++ v).extractLsb' 0 n)) = .ok (op v) :=
  ifUnusedZero_of_zero (high_unused m v) (congrArg op BitVec.extractLsb'_append_eq_right)

/-- A word is put together from the fields it has. -/
theorem opWord_of_fields {w : BitVec 64} {op : BitVec 8} {A : BitVec 24} {D : BitVec 32}
    (hop : (opField w).toNat = op.toNat) (hA : A = aField w) (hD : D = dField w) : opWord op A D = .opw w := by
  rw [opWord, hA, hD, ← BitVec.eq_of_toNat_eq hop, word_fields]

/-! ### Decoding what was encoded -/

theorem decodeDataAddr_ram (low : BitVec 22) : decodeDataAddr (0x0#2 ++ low) = .ok (.regionRam low) := by
  rw [decodeDataAddr, if_pos BitVec.extractLsb'_append_eq_left]
  exact congrArg (Except.ok ∘ Instr.regionRam) BitVec.extractLsb'_append_eq_right

theorem decodeDataAddr_rom (low : BitVec 20) : decodeDataAddr (0x4#4 ++ low) = .ok (.regionRom low) := by
  have notRam : (0x4#4 ++ low).extractLsb' 22 2 ≠ 0x0#2 := by
    rw [BitVec.extractLsb'_append_eq_of_le (by decide)]; decide
  rw [decodeDataAddr, if_neg notRam, if_pos BitVec.extractLsb'_append_eq_left]
  exact congrArg (Except.ok ∘ Instr.regionRom) BitVec.extractLsb'_append_eq_right

theorem decodeDataAddr_iochip (low : BitVec 19) : decodeDataAddr (0x1D#5 ++ low) = .ok (.regionIochip low) := by
  have notRam : (0x1D#5 ++ low).extractLsb' 22 2 ≠ 0x0#2 := by
    rw [BitVec.extractLsb'_append_eq_of_le (by decide)]; decide
  have notRom : (0x1D#5 ++ low).extractLsb' 20 4 ≠ 0x4#4 := by
    rw [BitVec.extractLsb'_append_eq_of_le (by decide)]; decide
  rw [decodeDataAddr, if_neg notRam, if_neg notRom, if_pos BitVec.extractLsb'_append_eq_left]
  exact congrArg (Except.ok ∘ Instr.regionIochip) BitVec.extractLsb'_append_eq_right

theorem decodeFetchAddr_alias (low : BitVec 22) : decodeFetchAddr (0x0#2 ++ low) = .ok (.regionOverlayAlias low) := by
  rw [decodeFetchAddr, if_pos BitVec.extractLsb'_append_eq_left]
  exact congrArg (Except.ok ∘ Instr.regionOverlayAlias) BitVec.extractLsb'_append_eq_right

/-- Settles O9: constructor by constructor the decoder reads `OP` back, finds the unused bits zero, and reads each
operand from where the encoder put it. -/
theorem decodeOfEncodeIsIdentity : Obligations.DecodeOfEncodeIsIdentity := by
  intro i wf
  cases i <;> simp only [encode, opWord, decode, decodeOpw, opField_word, aField_word, dField_word, BitVec.reduceToNat]
  case rdB | rdW | rdL | ifW => rw [toNat_ofNat_of_fitsField wf]; exact ifUnusedZero_of_zero rfl rfl
  case wrB A v => rw [toNat_ofNat_of_fitsField wf]; exact ifUnusedZero_of_extended (.wrB A) v
  case wrW A v => rw [toNat_ofNat_of_fitsField wf]; exact ifUnusedZero_of_extended (.wrW A) v
  case wrL => rw [toNat_ofNat_of_fitsField wf]
  case iack l => exact ifUnusedZero_of_extended .iack l
  case irqRaise s => exact ifUnusedZero_of_extended .irqRaise s
  case irqLower s => exact ifUnusedZero_of_extended .irqLower s
  case kbdCmd c => exact ifUnusedZero_of_extended .kbdCmd c
  case kbdKey sc pressed =>
    obtain ⟨high, bit8, bit7, low⟩ := keyField_parts sc pressed
    refine ifUnusedZero_of_zero ?_ (congrArg₂ Instr.kbdKey low (getLsbD_of_extractLsb' bit8))
    simp only [Bool.and_eq_true, beq_iff_eq]
    exact ⟨⟨rfl, high⟩, bit7⟩
  case tick => exact congrArg (Except.ok ∘ Instr.tick) (BitVec.extractLsb'_append_extractLsb' (w := 24) (len := 32))
  case mouseMove dx dy button =>
    refine ifUnusedZero_of_zero (high_unused 23 (BitVec.ofBool button)) ?_
    congr
    · exact BitVec.extractLsb'_append_eq_right
    · exact BitVec.extractLsb'_append_eq_left
    · exact getLsbD_of_extractLsb' BitVec.extractLsb'_append_eq_right
  case reset | btnSample => exact ifUnusedZero_of_zero rfl rfl
  case ovlDrive v =>
    exact ifUnusedZero_of_zero (high_unused 31 (BitVec.ofBool v))
      (congrArg Instr.ovlDrive (getLsbD_of_extractLsb' BitVec.extractLsb'_append_eq_right))
  case regionRam low => exact decodeDataAddr_ram low
  case regionRom low => exact decodeDataAddr_rom low
  case regionIochip low => exact decodeDataAddr_iochip low
  case regionHook => rfl
  case regionOverlayAlias low => exact decodeFetchAddr_alias low

/-! ### Encoding what was decoded -/

/-- A zero-extended operand is put back from its low bits where the bits above it are zero. -/
theorem extended_of_unused {m n : Nat} {x : BitVec (m + n)} (zero : (x.extractLsb' n m == 0#m) = true) :
    0#m ++ x.extractLsb' 0 n = x :=
  append_low_of_high (eq_of_beq zero)

/-- The decoder's arms, in the table's order: the word has the `OP` of its arm, each operand is written back where it
was read, and the bits no operand covers were tested to be zero. -/
theorem encode_of_decodeOpw {w : BitVec 64} {i : Instr} (h : decodeOpw w = .ok i) :
    i.wellFormed = true ∧ encode i = .opw w := by
  unfold decodeOpw at h
  dsimp only at h
  split at h
  case h_1 _ op | h_2 _ op | h_3 _ op | h_4 _ op => -- `RD.B`, `RD.W`, `RD.L`, `IF.W`
    obtain ⟨D, rfl⟩ := ifUnusedZero_ok h
    exact ⟨fitsField_aField w, opWord_of_fields op (ofNat_toNat_aField w) (eq_of_beq D).symm⟩
  case h_5 _ op => -- `WR.B`
    obtain ⟨D, rfl⟩ := ifUnusedZero_ok h
    exact ⟨fitsField_aField w, opWord_of_fields op (ofNat_toNat_aField w) (extended_of_unused (m := 24) (n := 8) D)⟩
  case h_6 _ op => -- `WR.W`
    obtain ⟨D, rfl⟩ := ifUnusedZero_ok h
    exact ⟨fitsField_aField w, opWord_of_fields op (ofNat_toNat_aField w) (extended_of_unused (m := 16) (n := 16) D)⟩
  case h_7 _ op => -- `WR.L`
    cases h
    exact ⟨fitsField_aField w, opWord_of_fields op (ofNat_toNat_aField w) rfl⟩
  case h_8 _ op | h_10 _ op | h_11 _ op => -- `IACK`, `IRQ.RAISE`, `IRQ.LOWER`
    obtain ⟨unused, rfl⟩ := ifUnusedZero_ok h
    obtain ⟨A, D⟩ := Bool.and_eq_true_iff.mp unused
    exact ⟨rfl, opWord_of_fields op (eq_of_beq A).symm (extended_of_unused (m := 29) (n := 3) D)⟩
  case h_9 _ op | h_16 _ op => -- `RESET`, `BTN.SAMPLE`
    obtain ⟨unused, rfl⟩ := ifUnusedZero_ok h
    obtain ⟨A, D⟩ := Bool.and_eq_true_iff.mp unused
    exact ⟨rfl, opWord_of_fields op (eq_of_beq A).symm (eq_of_beq D).symm⟩
  case h_12 _ op => -- `KBD.CMD`
    obtain ⟨unused, rfl⟩ := ifUnusedZero_ok h
    obtain ⟨A, D⟩ := Bool.and_eq_true_iff.mp unused
    exact ⟨rfl, opWord_of_fields op (eq_of_beq A).symm (extended_of_unused (m := 24) (n := 8) D)⟩
  case h_13 _ op => -- `KBD.KEY`
    obtain ⟨unused, rfl⟩ := ifUnusedZero_ok h
    simp only [Bool.and_eq_true, beq_iff_eq] at unused
    obtain ⟨⟨A, high⟩, bit7⟩ := unused
    exact ⟨rfl, opWord_of_fields op A.symm (keyField_of_parts high bit7)⟩
  case h_14 _ op => -- `TICK`
    cases h
    exact ⟨rfl, opWord_of_fields op BitVec.extractLsb'_append_eq_left BitVec.extractLsb'_append_eq_right⟩
  case h_15 _ op => -- `MOUSE.MOVE`
    obtain ⟨A, rfl⟩ := ifUnusedZero_ok h
    refine ⟨rfl, opWord_of_fields op ?_ (BitVec.extractLsb'_append_extractLsb' (w := 16) (len := 16))⟩
    rw [ofBool_getLsbD]
    exact extended_of_unused (m := 23) (n := 1) A
  case h_17 _ op => -- `OVL.DRIVE`
    obtain ⟨unused, rfl⟩ := ifUnusedZero_ok h
    obtain ⟨A, D⟩ := Bool.and_eq_true_iff.mp unused
    refine ⟨rfl, opWord_of_fields op (eq_of_beq A).symm ?_⟩
    rw [ofBool_getLsbD]
    exact extended_of_unused (m := 31) (n := 1) D
  case h_18 => cases h

/-- An address in a row is the row's fixed bits above the bits the operation keeps. -/
theorem encode_of_decodeDataAddr {a : BitVec 24} {i : Instr} (h : decodeDataAddr a = .ok i) :
    encode i = .addr .data a := by
  unfold decodeDataAddr at h
  split at h
  · cases h
    exact congrArg (Encoding.addr .data) (append_low_of_high (m := 2) (n := 22) ‹_›)
  split at h
  · cases h
    exact congrArg (Encoding.addr .data) (append_low_of_high (m := 4) (n := 20) ‹_›)
  split at h
  · cases h
    exact congrArg (Encoding.addr .data) (append_low_of_high (m := 5) (n := 19) ‹_›)
  split at h
  · cases h
    exact congrArg (Encoding.addr .data) ‹a = 0xC00069#24›.symm
  · cases h

/-- Settles O10: arm by arm the decoder keeps every bit of the word or address, or has tested it. -/
theorem encodeOfDecodeIsIdentity : Obligations.EncodeOfDecodeIsIdentity :=
  ⟨fun _ _ => encode_of_decodeOpw, fun _ _ => encode_of_decodeDataAddr⟩

/-! ### The rows of the table -/

/-- The family of Laws/PerInstr, for every operation at once. -/
theorem encodesItsRow (i : Instr) : Laws.EncodesItsRow.Statement i := by
  cases i
  exacts [Laws.EncodesItsRow.rdB _, Laws.EncodesItsRow.rdW _, Laws.EncodesItsRow.rdL _, Laws.EncodesItsRow.ifW _,
    Laws.EncodesItsRow.wrB _ _, Laws.EncodesItsRow.wrW _ _, Laws.EncodesItsRow.wrL _ _, Laws.EncodesItsRow.iack _,
    Laws.EncodesItsRow.reset, Laws.EncodesItsRow.irqRaise _, Laws.EncodesItsRow.irqLower _,
    Laws.EncodesItsRow.kbdCmd _, Laws.EncodesItsRow.kbdKey _ _, Laws.EncodesItsRow.tick _,
    Laws.EncodesItsRow.mouseMove _ _ _, Laws.EncodesItsRow.btnSample, Laws.EncodesItsRow.ovlDrive _,
    Laws.EncodesItsRow.regionRam _, Laws.EncodesItsRow.regionRom _, Laws.EncodesItsRow.regionIochip _,
    Laws.EncodesItsRow.regionHook, Laws.EncodesItsRow.regionOverlayAlias _]

/-- An operation with a word form has its row among the 17 (R58). -/
theorem rowOf_mem_opwRows {i : Instr} {w : BitVec 64} (h : encode i = .opw w) :
    ∃ r ∈ opwRows, r.maskBits = BitVec.ofNat 64 (Laws.rowOf i).1 ∧ r.matchBits = BitVec.ofNat 64 (Laws.rowOf i).2 := by
  cases i
  case regionRam | regionRom | regionIochip | regionHook | regionOverlayAlias => cases h
  all_goals simp only [Laws.rowOf]; decide

/-- The word of an operation matches a row. -/
theorem row_of_encode {i : Instr} {w : BitVec 64} (h : encode i = .opw w) :
    ∃ r ∈ opwRows, w &&& r.maskBits = r.matchBits := by
  obtain ⟨r, mem, mask, mtch⟩ := rowOf_mem_opwRows h
  have inRow : Laws.inRow (Laws.rowOf i).1 (Laws.rowOf i).2 (encode i) := encodesItsRow i
  rw [h] at inRow
  exact ⟨r, mem, by rw [mask, mtch]; exact inRow⟩

section Row

variable {w mask mtch : BitVec 64} (row : w &&& mask = mtch)
include row

/-- A word that matches a row has the row's `OP`. -/
theorem opField_of_row (full : opField mask = BitVec.allOnes 8) : opField w = mtch.extractLsb' 56 8 := by
  rw [← row, BitVec.extractLsb'_and, ← opField, ← opField, full, BitVec.and_allOnes]

/-- A word that matches a row has the row's `A` under the row's mask. -/
theorem aField_of_row : aField w &&& aField mask = aField mtch := by
  rw [← row]
  exact BitVec.extractLsb'_and.symm

/-- A word that matches a row has the row's `D` under the row's mask. -/
theorem dField_of_row : dField w &&& dField mask = dField mtch := by
  rw [← row]
  exact BitVec.extractLsb'_and.symm

end Row

/-- The test of R59 on a whole field passes where the row's mask is all ones. -/
theorem allUnused_of_masked {k : Nat} {x : BitVec k} (h : x &&& BitVec.allOnes k = 0#k) : (x == 0#k) = true :=
  beq_iff_eq.mpr (BitVec.and_allOnes.symm.trans h)

/-- The test of R59 on a part of a field passes where the row's mask covers the part. -/
theorem partUnused_of_masked {k n m : Nat} {x mask : BitVec k} (h : x &&& mask = 0#k)
    (covered : mask.extractLsb' n m = BitVec.allOnes m) : (x.extractLsb' n m == 0#m) = true := by
  have part := congrArg (BitVec.extractLsb' n m) h
  rw [BitVec.extractLsb'_and, covered, BitVec.extractLsb'_zero] at part
  exact allUnused_of_masked part

/-- `ifUnusedZero_of_zero` where the operation does not matter. -/
theorem ifUnusedZero_decodes {w : BitVec 64} {u : Bool} {i : Instr} (zero : u = true) :
    ∃ j, ifUnusedZero w u i = .ok j :=
  ⟨i, ifUnusedZero_of_zero zero rfl⟩

/-- A word that matches a row decodes: the row's mask covers what the decoder tests for zero. -/
theorem decodes_of_row (w : BitVec 64) :
    ∀ r ∈ opwRows, w &&& r.maskBits = r.matchBits → ∃ i, decodeOpw w = .ok i := by
  simp only [opwRows, List.forall_mem_cons, List.not_mem_nil, false_imp_iff, implies_true, and_true]
  refine ⟨?rdB, ?rdW, ?rdL, ?ifW, ?wrB, ?wrW, ?wrL, ?iack, ?reset, ?irqRaise, ?irqLower, ?kbdCmd, ?kbdKey, ?tick,
    ?mouseMove, ?btnSample, ?ovlDrive⟩
  all_goals
    intro row
    have op := opField_of_row row rfl
    simp only [decodeOpw, op, BitVec.reduceExtractLsb', BitVec.reduceToNat]
  case rdB | rdW | rdL | ifW => exact ifUnusedZero_decodes (allUnused_of_masked (dField_of_row row))
  case wrB | wrW => exact ifUnusedZero_decodes (partUnused_of_masked (dField_of_row row) rfl)
  case wrL | tick => exact ⟨_, rfl⟩
  case reset | btnSample =>
    exact ifUnusedZero_decodes (Bool.and_eq_true_iff.mpr
      ⟨allUnused_of_masked (aField_of_row row), allUnused_of_masked (dField_of_row row)⟩)
  case iack | irqRaise | irqLower | kbdCmd | ovlDrive =>
    exact ifUnusedZero_decodes (Bool.and_eq_true_iff.mpr
      ⟨allUnused_of_masked (aField_of_row row), partUnused_of_masked (dField_of_row row) rfl⟩)
  case kbdKey =>
    exact ifUnusedZero_decodes (Bool.and_eq_true_iff.mpr ⟨Bool.and_eq_true_iff.mpr
      ⟨allUnused_of_masked (aField_of_row row), partUnused_of_masked (dField_of_row row) rfl⟩,
      partUnused_of_masked (dField_of_row row) rfl⟩)
  case mouseMove => exact ifUnusedZero_decodes (partUnused_of_masked (aField_of_row row) rfl)

/-- A step whose oldest issued entry decodes to nothing is refused (R59, U16). -/
theorem step_of_undefined {s : State} {e : Encoding} {rest : List Issue} {r : DecodeError}
    (valid : s.cfg.valid = true) (bits : s.cfg.addrBits = 24) (issue : s.issued = .word e :: rest)
    (undefined : decode e = .error r) : step s = .refused (.undefinedEncoding r) := by
  simp [step, nextIssue, valid, bits, issue, undefined]

/-- Settles O7: what a word decodes to encodes back to that word, which lies in the operation's own row. -/
theorem decodeAcceptsExactlyTheTable : Obligations.DecodeAcceptsExactlyTheTable := by
  have accepts : ∀ w : BitVec 64, (∃ i, decodeOpw w = .ok i) ↔ ∃ r ∈ opwRows, w &&& r.maskBits = r.matchBits := by
    refine fun w => ⟨?_, fun ⟨r, listed, row⟩ => decodes_of_row w r listed row⟩
    rintro ⟨i, h⟩
    obtain ⟨-, word⟩ := encode_of_decodeOpw h
    exact row_of_encode word
  refine ⟨accepts, fun s w rest valid bits issue noRow => ?_⟩
  cases h : decodeOpw w with
  | ok i =>
    obtain ⟨r, listed, row⟩ := (accepts w).mp ⟨i, h⟩
    exact absurd row (noRow r listed)
  | error e => exact ⟨e, step_of_undefined valid bits issue h⟩

/-- Settles O8: each listed `OP` value lies outside the reserved ranges, so the decoder reaches its last arm. -/
theorem reservedOpValuesAreRefused : Obligations.ReservedOpValuesAreRefused := by
  intro w n reserved
  unfold decodeOpw
  dsimp only
  split
  case h_18 => rfl
  all_goals omega

/-! ### The address rows -/

theorem Config.ref_valid : Config.ref.valid = true := by decide

/-- An address matches a row's mask and match exactly when it lies in the range of the row's high bits (R61). -/
theorem matches_row_iff_range {m n : Nat} (x : BitVec (m + n)) (p : BitVec m) :
    x &&& (BitVec.allOnes m ++ 0#n) = p ++ 0#n ↔ p.toNat * 2 ^ n ≤ x.toNat ∧ x.toNat < p.toNat * 2 ^ n + 2 ^ n := by
  obtain ⟨high, low, rfl⟩ : ∃ (high : BitVec m) (low : BitVec n), x = high ++ low :=
    ⟨_, _, BitVec.extractLsb'_append_extractLsb'.symm⟩
  have quotient : (high ++ low).toNat / 2 ^ n = high.toNat := by
    rw [BitVec.toNat_append, ← Nat.shiftLeft_add_eq_or_of_lt low.isLt, Nat.shiftLeft_eq,
      Nat.add_comm, Nat.add_mul_div_right _ _ (Nat.two_pow_pos n), Nat.div_eq_of_lt low.isLt, Nat.zero_add]
  rw [Laws.and_of_append, BitVec.and_allOnes, BitVec.and_zero, BitVec.append_left_inj, ← BitVec.toNat_inj, ← quotient,
    Nat.div_eq_iff (Nat.two_pow_pos n)]
  have := Nat.two_pow_pos n
  omega

/-- The regions under REF as range tests with REF's numbers (R38). -/
theorem region_ref_iff (a : Nat) :
    (region Config.ref a = .ram ↔ a < 0x400000) ∧
    (region Config.ref a = .rom ↔ 0x400000 ≤ a ∧ a < 0x500000) ∧
    (region Config.ref a = .iochip ↔ 0xE80000 ≤ a ∧ a < 0xF00000) ∧
    (region Config.ref a = .hook ↔ a = 0xC00069) := by
  obtain ⟨ram, rom, iochip, hook, -⟩ := regionIsTheRangeTest Config.ref a Config.ref_valid
  exact ⟨ram, rom, iochip, hook⟩

theorem fetchRegion_eq_romAlias_iff (c : Config) (overlay : Bool) (a : Nat) :
    fetchRegion c overlay a = .romAlias ↔ overlay = true ∧ a < c.ovlSize := by
  simp [fetchRegion]

/-! The index that an address selects under REF, for an address of any number of bits. -/

theorem ramOffset_ref {n : Nat} (x : BitVec n) : ramOffset Config.ref x.toNat = (x.extractLsb' 0 17).toNat :=
  (BitVec.extractLsb'_toNat 0 17 x).symm

theorem aliasOffset_ref {n : Nat} (x : BitVec n) : aliasOffset Config.ref x.toNat = (x.extractLsb' 0 17).toNat :=
  (BitVec.extractLsb'_toNat 0 17 x).symm

theorem subreg_ref {n : Nat} (x : BitVec n) : subreg Config.ref x.toNat = (x.extractLsb' 9 4).toNat :=
  (BitVec.extractLsb'_toNat 9 4 x).symm

/-- `ROM_BASE` is a multiple of `ROM_SIZE`, so at and above it the ROM offset is that of `REGION.OVERLAY_ALIAS`. -/
theorem romOffset_ref {a : Nat} (h : 0x400000 ≤ a) : romOffset Config.ref a = aliasOffset Config.ref a := by
  show (a - 0x400000) % 0x20000 = a % 0x20000
  omega

/-- Settles O12: both sides of each row are one range test; the index bits are remainders of the address. -/
theorem addressRowsAreTheReferenceMap : Obligations.AddressRowsAreTheReferenceMap := by
  intro a
  obtain ⟨ram, rom, iochip, hook⟩ := region_ref_iff a.toNat
  have low : a &&& 0xC00000#24 = 0x000000#24 ↔ a.toNat < 0x400000 := by
    simpa using matches_row_iff_range (m := 2) (n := 22) a 0x0#2
  refine ⟨ram.trans low.symm, rom.trans (matches_row_iff_range (m := 4) (n := 20) a 0x4#4).symm,
    iochip.trans (matches_row_iff_range (m := 5) (n := 19) a 0x1D#5).symm, ?_, ?_,
    ramOffset_ref a, aliasOffset_ref a, fun inRom => ?_, subreg_ref a⟩
  · rw [hook, show 0xFFFFFF#24 = BitVec.allOnes 24 from rfl, BitVec.and_allOnes, ← BitVec.toNat_inj]
    rfl
  · rw [fetchRegion_eq_romAlias_iff, low]
    exact and_iff_right rfl
  · rw [romOffset_ref (rom.mp inRom).1, aliasOffset_ref]

/-- An operation that only answers an address row changes nothing but the outputs. -/
theorem running_answers {s : State} (run : s.halted = false) (answer : State → AddrAnswer) :
    running s (fun s => .next (returns s (.addr (answer s)))) =
      .next { s with out := [], ret := some (.addr (answer (beginOp s))) } :=
  running_of_running run

section Reference

variable {s : State} (ref : s.cfg = Config.ref) {a : Nat} (fits : a < 2 ^ 24)
include ref fits

theorem dataAnswer_ref {r : Region} (h : region Config.ref a = r) :
    dataAnswer s a = ⟨.plain r, selectIndex Config.ref a (.plain r)⟩ := by
  have masked : busAddr Config.ref a = a := Nat.mod_eq_of_lt fits
  rw [dataAnswer, ref, masked, h]

theorem fetchAnswer_ref {r : FetchRegion} (h : fetchRegion Config.ref s.overlay a = r) :
    fetchAnswer s a = ⟨r, selectIndex Config.ref a r⟩ := by
  have masked : busAddr Config.ref a = a := Nat.mod_eq_of_lt fits
  rw [fetchAnswer, ref, masked, h]

end Reference

/-- Settles O54: each row is an operation that only answers; under REF the row's fixed bits put the address into the
row's range, and its free bits carry the index. -/
theorem addressRowsAnswerTheDecoder : Obligations.AddressRowsAnswerTheDecoder := by
  intro s run
  refine ⟨fun low => running_answers run (dataAnswer · low.toNat),
    fun low => running_answers run (dataAnswer · (0x400000 + low.toNat)),
    fun low => running_answers run (dataAnswer · (0xE80000 + low.toNat)),
    running_answers run (dataAnswer · 0xC00069), fun low => running_answers run (fetchAnswer · low.toNat),
    fun ref => ⟨fun low => ?ram, fun low => ?rom, fun low => ?iochip, ?hook, fun low => ?overlaid⟩⟩
  case ram =>
    have size := low.isLt
    obtain ⟨inRam, -⟩ := region_ref_iff low.toNat
    rw [dataAnswer_ref ref (by omega) (inRam.mpr size), selectIndex, ramOffset_ref]
  case rom =>
    have size := low.isLt
    have index : romOffset Config.ref (0x400000 + low.toNat) = aliasOffset Config.ref low.toNat := by
      rw [romOffset_ref (by omega)]
      show (0x400000 + low.toNat) % 0x20000 = low.toNat % 0x20000
      omega
    obtain ⟨-, inRom, -⟩ := region_ref_iff (0x400000 + low.toNat)
    rw [dataAnswer_ref ref (by omega) (inRom.mpr (by omega)), selectIndex, index, aliasOffset_ref]
  case iochip =>
    have size := low.isLt
    have index : subreg Config.ref (0xE80000 + low.toNat) = subreg Config.ref low.toNat := by
      show (0xE80000 + low.toNat) >>> 9 % 2 ^ 4 = low.toNat >>> 9 % 2 ^ 4
      simp only [Nat.shiftRight_eq_div_pow]
      omega
    obtain ⟨-, -, inIochip, -⟩ := region_ref_iff (0xE80000 + low.toNat)
    rw [dataAnswer_ref ref (by omega) (inIochip.mpr (by omega)), selectIndex, index, subreg_ref]
  case hook =>
    obtain ⟨-, -, -, atHook⟩ := region_ref_iff 0xC00069
    exact dataAnswer_ref ref (by decide) (atHook.mpr rfl)
  case overlaid =>
    have size := low.isLt
    obtain ⟨inRam, -⟩ := region_ref_iff low.toNat
    cases overlay : s.overlay with
    | true =>
      have region : fetchRegion Config.ref s.overlay low.toNat = .romAlias :=
        (fetchRegion_eq_romAlias_iff ..).mpr ⟨overlay, size⟩
      rw [fetchAnswer_ref ref (by omega) region, selectIndex, aliasOffset_ref, if_pos rfl]
    | false =>
      have region : fetchRegion Config.ref s.overlay low.toNat = .plain .ram := by
        rw [overlay, fetchRegion, inRam.mpr size]
        rfl
      rw [fetchAnswer_ref ref (by omega) region, selectIndex, ramOffset_ref]
      rfl

/-! ### The step on an issued entry -/

/-- Settles O5: with a valid configuration the step runs what the oldest entry decodes to, or holds. -/
theorem stepRunsTheIssuedOperation : Obligations.StepRunsTheIssuedOperation := by
  intro s rest valid
  refine ⟨fun e i issue bits decoded _ => ?_, fun i issue => ?_⟩
  · simp only [step, nextIssue, valid, bits, issue, decoded, if_true]
  · simp only [step, nextIssue, valid, issue, if_true]

/-- Settles O6: each of these heads of the issued list makes the step answer the state with the entry taken in. -/
theorem stepTakesEnvironmentEntries : Obligations.StepTakesEnvironmentEntries := by
  intro s rest valid
  refine ⟨fun issue => ?_, fun b issue => ?_, fun v issue => ?_⟩
  all_goals simp only [step, nextIssue, valid, issue, if_true, beginOp]

/-- Settles O11: the decoder evaluated on the seven words. -/
theorem writtenWordsDecode : Obligations.WrittenWordsDecode := by
  unfold Obligations.WrittenWordsDecode
  decide

end Sys2Proof.Machine
end

section
/-! Proofs of the bus dispatch statements (40_bus_dispatch.md): the accesses without semantics, the round trip through
RAM, and what the overlay flag reaches. -/

namespace Sys2Proof.Machine

/-! ### Accesses without semantics (R75, R125) -/

/-- A byte-only region answers any other width with `F1` alone (R37, R47). -/
theorem byteOnlyRead_of_not_byte {w : Width} (wide : w ≠ .byte) (s : State) (a : Nat) (k : AccessKind)
    (byteRead : State × Byte) : byteOnlyRead s a w k byteRead = (raiseFatal s (.busNoSemantics a w k), none) := by
  cases w
  · exact absurd rfl wide
  · rfl
  · rfl

/-- The same for a write (R37, R48). -/
theorem byteOnlyWrite_of_not_byte {w : Width} (wide : w ≠ .byte) (s : State) (a : Nat) (v : BitVec w.bits)
    (byteWrite : Byte → State) : byteOnlyWrite s a w v byteWrite = raiseFatal s (.busNoSemantics a w .write) := by
  cases w
  · exact absurd rfl wide
  · rfl
  · rfl

section NoSemantics

variable {s : State} {A : Nat} {w : Width} {k : Nat}

theorem memRead_of_extra_lacking (h : s.regionOf A = .extra k) (lacks : extraHas s.cfg k w = false) :
    memRead s A w = (raiseFatal s (.busNoSemantics (busAddr s.cfg A) w .read), none) := by
  rw [State.regionOf] at h
  simp only [memRead, h, lacks, Bool.false_eq_true, if_false]

theorem memWrite_of_extra_lacking (h : s.regionOf A = .extra k) (lacks : extraHas s.cfg k w = false)
    (v : BitVec w.bits) : memWrite s A w v = raiseFatal s (.busNoSemantics (busAddr s.cfg A) w .write) := by
  rw [State.regionOf] at h
  simp only [memWrite, h, lacks, Bool.false_eq_true, if_false]

theorem memWrite_of_rom_fatal (h : s.regionOf A = .rom) (fatal : s.cfg.romWritePolicy = .fatal) (v : BitVec w.bits) :
    memWrite s A w v = raiseFatal s (.busNoSemantics (busAddr s.cfg A) w .write) := by
  rw [State.regionOf] at h
  simp only [memWrite, h, fatal]

theorem memWrite_of_hook (h : s.regionOf A = .hook) (v : BitVec w.bits) :
    memWrite s A w v = byteOnlyWrite s (busAddr s.cfg A) w v (discHook s) := by
  rw [State.regionOf] at h
  simp only [memWrite, h]

end NoSemantics

/-- Settles O19: both byte-only regions refuse a wider read, and an extra window a width it lacks; from a running block
that is the whole effect. -/
theorem readsOfALackingWidthHalt : Obligations.ReadsOfALackingWidthHalt := by
  intro s w A run lacking
  rw [exec_readOp_of_running run]
  obtain ⟨region | region, wide⟩ | ⟨k, region, lacks⟩ := lacking
  · rw [memRead_of_iochip (s := beginOp s) region, byteOnlyRead_of_not_byte wide]
    rfl
  · rw [memRead_of_hook (s := beginOp s) region, byteOnlyRead_of_not_byte wide]
    rfl
  · rw [memRead_of_extra_lacking (s := beginOp s) region lacks]
    rfl

/-- Settles O25: as for reads, and ROM refuses every width under policy `fatal`. -/
theorem writesWithoutSemanticsHalt : Obligations.WritesWithoutSemanticsHalt := by
  intro s w A v run lacking
  rw [exec_writeOp_of_running run]
  obtain ⟨region | region, wide⟩ | ⟨region, fatal⟩ | ⟨k, region, lacks⟩ := lacking
  · rw [memWrite_of_iochip (s := beginOp s) region, byteOnlyWrite_of_not_byte wide]
    rfl
  · rw [memWrite_of_hook (s := beginOp s) region, byteOnlyWrite_of_not_byte wide]
    rfl
  · rw [memWrite_of_rom_fatal (s := beginOp s) region fatal]
    rfl
  · rw [memWrite_of_extra_lacking (s := beginOp s) region lacks]
    rfl

/-! ### The round trip through RAM (R83) -/

/-- Settles O23: the write leaves the block running and the decoder as it was, so the read goes to the offset written. -/
theorem ramRoundTrip : Obligations.RamRoundTrip := by
  intro s w A v inv run region
  have write := exec_writeOp_of_running run w A v
  rw [memWrite_of_ram (s := beginOp s) region] at write
  refine ⟨_, _, write, exec_readOp_of_running (s := ramWrite ..) run w A, ?_⟩
  rw [memRead_of_ram (s := beginOp (ramWrite ..)) region]
  exact congrArg (some ∘ retOf w) (ramRead_ramWrite_same (s := beginOp s) inv _ w v)

/-! ### What the overlay flag reaches (R84) -/

/-- The state with the overlay flag at `o`. -/
def State.withOverlay (o : Bool) (s : State) : State := { s with overlay := o }

/-- An operation whose effect commutes with setting the flag commutes with it: the halted test and the start of an
operation do not look at the flag. -/
theorem running_withOverlay (o : Bool) (s : State) {f : State → Host.Outcome State Fault Refusal}
    (effect : f ((beginOp s).withOverlay o) = mapNext (.withOverlay o) (f (beginOp s))) :
    running (s.withOverlay o) f = mapNext (.withOverlay o) (running s f) := by
  cases h : s.halted with
  | true => rw [running_of_halted h, running_of_halted (s := s.withOverlay o) h]; rfl
  | false =>
    rw [running_of_running h, running_of_running (s := s.withOverlay o) h]
    exact effect

@[simp] theorem withOverlay_cfg (o : Bool) (s : State) : (s.withOverlay o).cfg = s.cfg := rfl

/-! A read is carried over to the other flag by its state; its value stays. -/

theorem iochipRead_withOverlay (o : Bool) (s : State) (a : Nat) :
    iochipRead (s.withOverlay o) a = (iochipRead s a).map (.withOverlay o) id := by
  simp only [iochipRead, withOverlay_cfg, apply_ite (Prod.map (State.withOverlay o) id)]
  rfl

theorem iochipWrite_withOverlay (o : Bool) (s : State) (a : Nat) (v : Byte) :
    iochipWrite (s.withOverlay o) a v = (iochipWrite s a v).withOverlay o := by
  simp only [iochipWrite, withOverlay_cfg, apply_ite (State.withOverlay o)]
  rfl

theorem discHook_withOverlay (o : Bool) (s : State) (v : Byte) :
    discHook (s.withOverlay o) v = (discHook s v).withOverlay o := by
  simp only [discHook, apply_ite (State.withOverlay o)]
  rfl

/-- A data read does not look at the flag. -/
theorem memRead_withOverlay (o : Bool) (s : State) (A : Nat) (w : Width) :
    memRead (s.withOverlay o) A w = (memRead s A w).map (.withOverlay o) id := by
  simp only [memRead, withOverlay_cfg]
  split
  · rfl
  · rfl
  · rw [iochipRead_withOverlay]
    cases w <;> rfl
  · cases w <;> rfl
  · rw [apply_ite (Prod.map (State.withOverlay o) id)]
    rfl
  · rfl

/-- A data write does not look at the flag. -/
theorem memWrite_withOverlay (o : Bool) (s : State) (A : Nat) (w : Width) (v : BitVec w.bits) :
    memWrite (s.withOverlay o) A w v = (memWrite s A w v).withOverlay o := by
  simp only [memWrite, withOverlay_cfg]
  split
  · rfl
  · split <;> rfl
  · cases w
    · exact iochipWrite_withOverlay o s _ v
    · rfl
    · rfl
  · cases w
    · exact discHook_withOverlay o s v
    · rfl
    · rfl
  · rw [apply_ite (State.withOverlay o)]
    rfl
  · rfl

/-- At and above `OVL_SIZE` a fetch goes by the data decoder, whatever the flag (R39). -/
theorem fetchWord_withOverlay (o : Bool) {s : State} {A : Nat} (high : s.cfg.ovlSize ≤ busAddr s.cfg A) :
    fetchWord (s.withOverlay o) A = (fetchWord s A).map (.withOverlay o) id := by
  have plain : ∀ overlay, fetchRegion s.cfg overlay (busAddr s.cfg A) = .plain (s.regionOf A) :=
    fun overlay => fetchRegion_of_plain (s := s.withOverlay overlay) (.inr high)
  simp only [fetchWord, withOverlay_cfg, plain]
  cases s.regionOf A with
  | ram | rom | iochip | hook | unmapped => rfl
  | extra k =>
    dsimp only
    rw [apply_ite (Prod.map (State.withOverlay o) id)]
    rfl

/-- Settles O29: each bus operation is an effect of a running block that commutes with setting the flag. -/
theorem overlayReachesOnlyLowFetches : Obligations.OverlayReachesOnlyLowFetches := by
  intro s o A
  refine ⟨fun w => ?_, fun w v => ?_, fun high => ?_⟩
  · rw [exec_readOp, exec_readOp]
    refine running_withOverlay o s ?_
    rw [memRead_withOverlay]
    rfl
  · rw [exec_writeOp, exec_writeOp]
    refine running_withOverlay o s ?_
    rw [memWrite_withOverlay]
    rfl
  · rw [exec_ifW, exec_ifW]
    refine running_withOverlay o s ?_
    rw [fetchWord_withOverlay (s := beginOp s) o high]
    rfl

end Sys2Proof.Machine
end

section
/-! Proofs of the interrupt statements (41_interrupt_controller.md). First the events that the other operations do not
emit; then the controller's three operations from a running block; then, once for every operation, what it does to the
mask, the level and the CPU line. -/

namespace Sys2Proof.Machine

/-! ### The events of the shared operations

Each rule says of an event of another kind than the operation emits that it is in the output only if it was there
before. -/

section Emits

variable {s : State} {e : Event}

/-- A call of the I/O chip for reading emits `dev_read`, and logs `W3` for a hole (R41). -/
@[simp] theorem mem_iochipRead_out (notRead : ∀ r b, e ≠ .devRead r b) (notLog : ∀ x, e ≠ .log x) (a : Nat) :
    e ∈ (iochipRead s a).1.out ↔ e ∈ s.out := by
  simp only [iochipRead]
  split
  · simp [notRead, notLog]
  · simp [devRead, notRead]

/-- A call of the I/O chip for writing emits `dev_write`, and logs `W3` for a hole (R41). -/
@[simp] theorem mem_iochipWrite_out (notWrite : ∀ r b, e ≠ .devWrite r b) (notLog : ∀ x, e ≠ .log x) (a : Nat)
    (v : Byte) : e ∈ (iochipWrite s a v).out ↔ e ∈ s.out := by
  simp only [iochipWrite]
  split
  · simp [notWrite, notLog]
  · simp [notWrite]

/-- A hook write emits `disc_cmd`, and `F2` when the status says so (R116). -/
@[simp] theorem mem_discHook_out (notCmd : ∀ b x, e ≠ .discCmd b x) (notFatal : ∀ f, e ≠ .fatal f) (v : Byte) :
    e ∈ (discHook s v).out ↔ e ∈ s.out := by
  simp only [discHook]
  split
  · simp [discCmd, notCmd]
  · simp [discCmd, notCmd, notFatal]

/-- A data read emits `dev_read`, a warning or a fatal event (R47). -/
@[simp] theorem mem_memRead_out (notRead : ∀ r b, e ≠ .devRead r b) (notLog : ∀ x, e ≠ .log x)
    (notFatal : ∀ f, e ≠ .fatal f) (A : Nat) (w : Width) : e ∈ (memRead s A w).1.out ↔ e ∈ s.out := by
  simp only [memRead]
  split
  · rfl
  · rfl
  · cases w <;> simp [byteOnlyRead, notRead, notLog, notFatal]
  · cases w <;> simp [byteOnlyRead, notLog, notFatal]
  · split
    · simp [notLog]
    · simp [notFatal]
  · simp [notLog]

/-- A fetch emits a warning or a fatal event (R49). -/
@[simp] theorem mem_fetchWord_out (notLog : ∀ x, e ≠ .log x) (notFatal : ∀ f, e ≠ .fatal f) (A : Nat) :
    e ∈ (fetchWord s A).1.out ↔ e ∈ s.out := by
  simp only [fetchWord]
  split
  · rfl
  · rfl
  · rfl
  · simp [notFatal]
  · simp [notFatal]
  · split
    · simp [notLog]
    · simp [notFatal]
  · simp [notLog]

/-- A data write emits `dev_write`, `disc_cmd`, a warning or a fatal event (R48). -/
@[simp] theorem mem_memWrite_out (notWrite : ∀ r b, e ≠ .devWrite r b) (notCmd : ∀ b x, e ≠ .discCmd b x)
    (notLog : ∀ x, e ≠ .log x) (notFatal : ∀ f, e ≠ .fatal f) (A : Nat) (w : Width) (v : BitVec w.bits) :
    e ∈ (memWrite s A w v).out ↔ e ∈ s.out := by
  simp only [memWrite]
  split
  · rfl
  · split
    · simp [notFatal]
    · simp [notLog]
  · cases w <;> simp [byteOnlyWrite, notWrite, notLog, notFatal]
  · cases w <;> simp [byteOnlyWrite, notCmd, notFatal]
  · split
    · simp [notLog]
    · simp [notFatal]
  · simp [notLog]

/-- A keyboard dispatch emits `sr_rx` or a warning (R102). -/
@[simp] theorem mem_kbdDispatch_out (notRx : ∀ b, e ≠ .srRx b) (notLog : ∀ x, e ≠ .log x) (c : Byte) :
    e ∈ (kbdDispatch s c).out ↔ e ∈ s.out := by
  simp only [kbdDispatch]
  split
  · simp [notRx]
  · split
    · split <;> simp [notRx]
    · split <;> simp [notRx, notLog]

/-- Mouse motion emits nothing (R110). -/
@[simp] theorem mouseMotion_out (dx dy : BitVec 16) : (mouseMotion s dx dy).out = s.out := by
  rw [mouseMotion_frame]

end Emits

/-! ### The controller's operations from a running block -/

/-- Only a running block answers a next state (R130). -/
theorem running_of_exec_next : ∀ i s t, exec i s = .next t → s.halted = false := by
  apply exec_induction <;> intros <;> assumption

theorem exec_ne_next_of_halted {s : State} (halted : s.halted = true) (i : Instr) (t : State) : exec i s ≠ .next t :=
  fun h => Bool.false_ne_true ((running_of_exec_next i s t h).symm.trans halted)

theorem exec_iack (l : BitVec 3) (s : State) : exec (.iack l) s = execIack l s := rfl

theorem exec_irqRaise (x : BitVec 3) (s : State) : exec (.irqRaise x) s = execIrqRaise x s := rfl

theorem exec_irqLower (x : BitVec 3) (s : State) : exec (.irqLower x) s = execIrqLower x s := rfl

section Controller

variable {s : State} (run : s.halted = false) (x : BitVec 3)
include run

theorem exec_irqRaise_of_rises (changed : setPending s.irqPending x ≠ s.irqPending)
    (above : s.irqLevel.toNat < x.toNat) : exec (.irqRaise x) s =
      .next { s with irqPending := setPending s.irqPending x, irqLevel := x, out := [.irqOut x], ret := none } := by
  rw [exec_irqRaise, execIrqRaise, running_of_running run]
  exact if_pos ⟨changed, above⟩

theorem exec_irqRaise_of_stays
    (stays : ¬ (setPending s.irqPending x ≠ s.irqPending ∧ s.irqLevel.toNat < x.toNat)) : exec (.irqRaise x) s =
      .next { s with irqPending := setPending s.irqPending x, out := [], ret := none } := by
  rw [exec_irqRaise, execIrqRaise, running_of_running run]
  exact if_neg stays

theorem exec_irqLower_of_running : exec (.irqLower x) s =
    .next { s with
      irqPending := clearPending s.irqPending x
      irqLevel := highestPending (clearPending s.irqPending x)
      out := [.irqOut (highestPending (clearPending s.irqPending x))]
      ret := none } := by
  rw [exec_irqLower, execIrqLower, running_of_running run]
  rfl

end Controller

/-- Settles O39: the effect of the operation is the answer alone, and REF's table has the token as its only value. -/
theorem iackReturnsTheAutovector : Obligations.IackReturnsTheAutovector := by
  intro s l
  refine ⟨fun ref => ?_, fun run => ?_, fun halted => exec_ne_next_of_halted halted _⟩
  · rw [ref]
    rfl
  · rw [exec_iack, execIack, running_of_running run]
    rfl

/-- Settles O40: the operation compares the masks, which differ exactly when the bit was clear. -/
theorem raiseSetsBitAndMayRaiseLevel : Obligations.RaiseSetsBitAndMayRaiseLevel := by
  intro s x
  refine ⟨fun halted => exec_ne_next_of_halted halted _, fun run => ⟨setPending s.irqPending x,
    setPending_getLsbD s.irqPending x, fun clear above => ?_, fun keeps => ?_⟩⟩
  · exact exec_irqRaise_of_rises run x ((setPending_ne_iff _ _).mpr clear) above
  · refine exec_irqRaise_of_stays run x ?_
    rw [setPending_ne_iff]
    rintro ⟨clear, above⟩
    obtain set | notAbove := keeps
    · exact absurd (clear.symm.trans set) Bool.false_ne_true
    · exact absurd above (Nat.not_lt.mpr notAbove)

/-- Settles O41: the operation's scan finds the highest bit of the mask it leaves. -/
theorem lowerClearsBitAndSendsLevel : Obligations.LowerClearsBitAndSendsLevel := by
  intro s x
  exact ⟨fun halted => exec_ne_next_of_halted halted _, fun run => ⟨_, _, clearPending_getLsbD s.irqPending x,
    (isHighest_iff _ _).mpr rfl, exec_irqLower_of_running run x⟩⟩

/-- The scan of R91 stops before bit 0, so the bit does not matter to it. -/
theorem highestPending_clearPending_zero : ∀ p : BitVec 8, highestPending (clearPending p 0) = highestPending p := by
  decide

/-- Settles O44: no level is below 0, so a raise of 0 moves none; and the scan does not look at bit 0. -/
theorem sourceZeroNeverInterrupts : Obligations.SourceZeroNeverInterrupts := by
  intro s inv run
  obtain ⟨-, -, -, level, -, -⟩ := inv
  have other : ∀ j, 0 < j → decide (j = (0 : BitVec 3).toNat) = false := fun j pos => decide_eq_false pos.ne'
  refine ⟨⟨setPending s.irqPending 0, ?_, fun j pos lt => ?_, ?_⟩,
    ⟨clearPending s.irqPending 0, ?_, fun j pos lt => ?_, ?_⟩, fun only => ?_⟩
  · exact setPending_getLsbD s.irqPending 0 0 (by decide)
  · rw [setPending_getLsbD _ _ j lt, other j pos, Bool.false_or]
  · exact exec_irqRaise_of_stays run 0 fun rises => Nat.not_lt_zero _ rises.2
  · exact clearPending_getLsbD s.irqPending 0 0 (by decide)
  · rw [clearPending_getLsbD _ _ j lt, other j pos, Bool.not_false, Bool.true_and]
  · have lower := exec_irqLower_of_running run 0
    rwa [highestPending_clearPending_zero, ← level] at lower
  · rw [level, only]
    rfl

/-! ### What any operation does to the mask, the level and the CPU line -/

/-- The changes of the interrupt controller that an operation can make: none, a raise that moves the level, a raise
that only records, a lower (R90, R91). -/
inductive IrqChange (s t : State) : Prop where
  | silent (pending : t.irqPending = s.irqPending) (level : t.irqLevel = s.irqLevel)
      (out : ∀ l, .irqOut l ∉ t.out)
  | rises (x : BitVec 3) (rise : setPending s.irqPending x ≠ s.irqPending ∧ s.irqLevel.toNat < x.toNat)
      (pending : t.irqPending = setPending s.irqPending x) (level : t.irqLevel = x) (out : t.out = [.irqOut x])
  | records (x : BitVec 3) (stays : ¬ (setPending s.irqPending x ≠ s.irqPending ∧ s.irqLevel.toNat < x.toNat))
      (pending : t.irqPending = setPending s.irqPending x) (level : t.irqLevel = s.irqLevel) (out : t.out = [])
  | lowers (x : BitVec 3) (pending : t.irqPending = clearPending s.irqPending x)
      (level : t.irqLevel = highestPending t.irqPending) (out : t.out = [.irqOut t.irqLevel])

/-- Every operation that answers a next state makes one of these changes. -/
theorem exec_irqChange : ∀ i s t, exec i s = .next t → IrqChange s t := by
  apply exec_induction
  case raise =>
    intro s x _
    split <;> rename_i rise
    · exact .rises x rise rfl rfl rfl
    · exact .records x rise rfl rfl rfl
  case lower => exact fun s x _ => .lowers x rfl rfl rfl
  case motion | tick | cmd | key => intros; split <;> exact .silent (by simp) (by simp) (by simp)
  case read | write | fetch | ack | reset | sample | drive | address =>
    intros; exact .silent (by simp) (by simp) (by simp)

/-- Power-on answers the start state or refuses (R143). -/
theorem powerOn_next {c : Config} {ram rom : Mem} {ds : List (Option Drive)} {s : State}
    (h : powerOn c ram rom ds = .next s) : s = State.init c ram rom ds := by
  unfold powerOn at h
  split at h
  · split at h <;> cases h
    rfl
  · cases h

/-- Settles O42: power-on starts from an empty mask; a raise moves the highest bit exactly when it moves the level, and
a lower rescans. -/
theorem levelIsTheHighestPending : Obligations.LevelIsTheHighestPending := by
  refine ⟨fun c ram rom ds s h => ?_, fun i s t highest h => ?_⟩
  · rw [powerOn_next h]
    exact (isHighest_iff 0 0).mpr (by decide)
  · rw [isHighest_iff] at highest ⊢
    cases exec_irqChange i s t h with
    | silent pending level => rw [level, pending, highest]
    | rises x rise pending level =>
      rw [highest] at rise
      rw [level, pending, highestPending_setPending, if_pos rise]
    | records x stays pending level =>
      rw [highest] at stays
      rw [level, pending, highestPending_setPending, if_neg stays, highest]
    | lowers x pending level => exact level

/-- Settles O43: an operation that moves the level sends it, and one that does not sends nothing or that level. -/
theorem cpuLineFollowsTheLevel : Obligations.CpuLineFollowsTheLevel := by
  intro i s t h
  cases exec_irqChange i s t h with
  | silent _ level out => exact ⟨fun l sent => absurd sent (out l), fun moved => absurd level moved⟩
  | rises x _ _ level out => simp [out, level]
  | records x _ _ level out => simp [out, level]
  | lowers x _ _ out => simp [out]

end Sys2Proof.Machine
end

section
/-! Proofs of the keyboard statements (42_keyboard.md). First what a dispatch answers, command by command; then the three
operations from a running block; then the statements. -/

namespace Sys2Proof.Machine

/-! ### The dispatch, command by command (R102) -/

section Dispatch

variable {s : State} {c : Byte}

theorem kbdDispatch_of_model (model : c = s.cfg.kbdCmdModel) : kbdDispatch s c = emit s (.srRx s.cfg.kbdRspModel) :=
  if_pos model

theorem kbdDispatch_of_event (notModel : c ≠ s.cfg.kbdCmdModel) (inquiry : c = s.cfg.kbdCmdInquiry)
    (event : s.kbdEvtValid = true) : kbdDispatch s c = { emit s (.srRx s.kbdEvt) with kbdEvtValid := false } := by
  rw [kbdDispatch, if_neg notModel, if_pos inquiry, if_pos event]

theorem kbdDispatch_of_no_event (notModel : c ≠ s.cfg.kbdCmdModel) (inquiry : c = s.cfg.kbdCmdInquiry)
    (empty : s.kbdEvtValid = false) : kbdDispatch s c = emit s (.srRx s.cfg.kbdRspNull) := by
  rw [kbdDispatch, if_neg notModel, if_pos inquiry, if_neg (Bool.eq_false_iff.mp empty)]

theorem kbdDispatch_of_unknown (notModel : c ≠ s.cfg.kbdCmdModel) (notInquiry : c ≠ s.cfg.kbdCmdInquiry) :
    kbdDispatch s c = { s with out := s.out ++ .log (.kbdUnknownCmd c) ::
      ((s.cfg.kbdOtherResponse.apply c).map Event.srRx).toList } := by
  rw [kbdDispatch, if_neg notModel, if_neg notInquiry]
  cases s.cfg.kbdOtherResponse.apply c with
  | none => rfl
  | some b => simp [emit, logWarning]

end Dispatch

/-- The dwell test is the comparison on unbounded integers (R101). -/
theorem dwellElapsed_iff (dwell : Nat) (now since : Time) :
    dwellElapsed dwell now since = true ↔ (dwell : Int) ≤ (now.toNat : Int) - since.toNat :=
  decide_eq_true_iff

/-! ### The keyboard's operations from a running block -/

theorem exec_kbdCmd (c : BitVec 8) (s : State) : exec (.kbdCmd c) s = execKbdCmd c s := rfl

theorem exec_kbdKey (sc : BitVec 7) (pressed : Bool) (s : State) :
    exec (.kbdKey sc pressed) s = execKbdKey sc pressed s := rfl

theorem exec_tick (x : BitVec 56) (s : State) : exec (.tick x) s = execTick x s := rfl

/-- An operation's start that logs a warning or not has that warning as its only event. -/
theorem ite_logWarning_beginOp (s : State) (overwrites : Bool) (w : Warning) :
    (if overwrites then logWarning (beginOp s) w else beginOp s) =
      { s with out := if overwrites then [.log w] else [], ret := none } := by
  cases overwrites <;> rfl

section Running

variable {s : State} (run : s.halted = false)
include run

/-- The command is latched with the current time; a command overwritten is logged (R99). -/
theorem exec_kbdCmd_of_running (c : BitVec 8) : exec (.kbdCmd c) s = .next { s with
    kbdCmdValid := true, kbdCmd := c, kbdCmdTime := s.timeUs, ret := none,
    out := if s.kbdCmdValid then [.log (.kbdCmdOverwrite s.kbdCmd c)] else [] } := by
  rw [exec_kbdCmd, execKbdCmd, running_of_running run, ite_logWarning_beginOp]
  rfl

/-- The event slot takes the event; an event overwritten is logged (R100). -/
theorem exec_kbdKey_of_running (sc : BitVec 7) (pressed : Bool) : exec (.kbdKey sc pressed) s = .next { s with
    kbdEvtValid := true, kbdEvt := keyEvent s.cfg sc pressed, ret := none,
    out := if s.kbdEvtValid then [.log (.kbdEventOverwrite s.kbdEvt)] else [] } := by
  rw [exec_kbdKey, execKbdKey, running_of_running run, ite_logWarning_beginOp]
  rfl

variable {x : BitVec 56}

theorem exec_tick_of_early (early : x.toNat < s.timeUs.toNat) :
    exec (.tick x) s = .refused (.timeRunsBack s.timeUs x) := by
  rw [exec_tick, execTick, running_of_running run]
  exact if_pos early

variable (later : s.timeUs.toNat ≤ x.toNat)
include later

/-- With no command latched, or its dwell not over, a tick takes the time alone (R101, R103). -/
theorem exec_tick_of_waiting
    (waits : s.kbdCmdValid = false ∨ (x.toNat : Int) - s.kbdCmdTime.toNat < s.cfg.kbdDwell) :
    exec (.tick x) s = .next { s with timeUs := x, out := [], ret := none } := by
  have quiet : ¬ (s.kbdCmdValid && dwellElapsed s.cfg.kbdDwell x s.kbdCmdTime) = true := by
    rw [Bool.and_eq_true, dwellElapsed_iff, not_and_or, Bool.not_eq_true, not_le]
    exact waits
  rw [exec_tick, execTick, running_of_running run]
  exact (if_neg (Nat.not_lt.mpr later)).trans (if_neg quiet)

variable (latched : s.kbdCmdValid = true) (elapsed : (s.cfg.kbdDwell : Int) ≤ (x.toNat : Int) - s.kbdCmdTime.toNat)
include latched elapsed

/-- With a command latched and its dwell over, a tick dispatches it and clears the latch (R101, R103). -/
theorem exec_tick_of_elapsed {u : State}
    (answer : kbdDispatch { s with timeUs := x, out := [], ret := none } s.kbdCmd = u) :
    exec (.tick x) s = .next { u with kbdCmdValid := false } := by
  have answers : (s.kbdCmdValid && dwellElapsed s.cfg.kbdDwell x s.kbdCmdTime) = true := by
    rw [Bool.and_eq_true, dwellElapsed_iff]
    exact ⟨latched, elapsed⟩
  rw [exec_tick, execTick, running_of_running run, ← answer]
  exact (if_neg (Nat.not_lt.mpr later)).trans (if_pos answers)

theorem exec_tick_of_model (model : s.kbdCmd = s.cfg.kbdCmdModel) : exec (.tick x) s = .next { s with
    timeUs := x, kbdCmdValid := false, out := [.srRx s.cfg.kbdRspModel], ret := none } :=
  exec_tick_of_elapsed run later latched elapsed (kbdDispatch_of_model model)

variable (notModel : s.kbdCmd ≠ s.cfg.kbdCmdModel)
include notModel

theorem exec_tick_of_event (inquiry : s.kbdCmd = s.cfg.kbdCmdInquiry) (event : s.kbdEvtValid = true) :
    exec (.tick x) s = .next { s with
      timeUs := x, kbdCmdValid := false, kbdEvtValid := false, out := [.srRx s.kbdEvt], ret := none } :=
  exec_tick_of_elapsed run later latched elapsed (kbdDispatch_of_event notModel inquiry event)

theorem exec_tick_of_no_event (inquiry : s.kbdCmd = s.cfg.kbdCmdInquiry) (empty : s.kbdEvtValid = false) :
    exec (.tick x) s = .next { s with
      timeUs := x, kbdCmdValid := false, out := [.srRx s.cfg.kbdRspNull], ret := none } :=
  exec_tick_of_elapsed run later latched elapsed (kbdDispatch_of_no_event notModel inquiry empty)

theorem exec_tick_of_unknown (notInquiry : s.kbdCmd ≠ s.cfg.kbdCmdInquiry) : exec (.tick x) s = .next { s with
    timeUs := x, kbdCmdValid := false, ret := none, out := .log (.kbdUnknownCmd s.kbdCmd) ::
      ((s.cfg.kbdOtherResponse.apply s.kbdCmd).map Event.srRx).toList } :=
  exec_tick_of_elapsed run later latched elapsed (kbdDispatch_of_unknown notModel notInquiry)

end Running

/-! ### The event byte (R66) -/

theorem keyEvent_scancode (c : Config) (sc : BitVec 7) (pressed : Bool) :
    (keyEvent c sc pressed).extractLsb' 0 7 = sc :=
  BitVec.extractLsb'_append_eq_right

theorem keyEvent_direction (c : Config) (sc : BitVec 7) (pressed : Bool) :
    (keyEvent c sc pressed).getLsbD 7 = if pressed then c.kbdDirDown else !c.kbdDirDown :=
  getLsbD_of_extractLsb' BitVec.extractLsb'_append_eq_left

/-! ### The statements -/

/-- Settles O45: the effect of a running block's `KBD.CMD`. -/
theorem kbdCmdLatchesTheByte : Obligations.KbdCmdLatchesTheByte := by
  intro s c
  exact ⟨fun halted => exec_ne_next_of_halted halted _, fun run => exec_kbdCmd_of_running run c⟩

/-- Settles O46: the byte stored is the event of R66. -/
theorem kbdKeyFillsTheSlot : Obligations.KbdKeyFillsTheSlot := by
  intro s sc pressed
  exact ⟨fun halted => exec_ne_next_of_halted halted _, fun run => ⟨keyEvent s.cfg sc pressed,
    keyEvent_scancode _ _ _, keyEvent_direction _ _ _, exec_kbdKey_of_running run sc pressed⟩⟩

/-- Settles O47: the dwell test decides whether the tick dispatches, and then the command what it answers. -/
theorem tickFollowsTheTransitionTable : Obligations.TickFollowsTheTransitionTable := by
  intro s x
  refine ⟨fun halted => exec_ne_next_of_halted halted _, fun run early t => ?_,
    fun run later => ⟨exec_tick_of_waiting run later, fun latched elapsed =>
      ⟨exec_tick_of_model run later latched elapsed, exec_tick_of_event run later latched elapsed,
        exec_tick_of_no_event run later latched elapsed, fun notModel notInquiry => ?_⟩⟩⟩
  · rw [exec_tick_of_early run early]
    nofun
  · rw [exec_tick_of_unknown run later latched elapsed notModel notInquiry]
    cases s.cfg.kbdOtherResponse.apply s.kbdCmd <;> rfl

/-- The model command and the inquiry differ (R8). -/
theorem Config.valid_model_ne_inquiry {c : Config} (valid : c.valid = true) : c.kbdCmdModel ≠ c.kbdCmdInquiry := by
  obtain ⟨-, -, -, -, -, -, -, -, -, -, -, -, -, -, -, -, -, differ⟩ := (validConfigMeetsTheConstraints.1 c).mp valid
  exact differ

/-- Settles O48: a command latched now has its dwell over from `KBD_DWELL` after now, so the tick answers it by its row
of the transition table; after the model response the latch is empty, and the next tick waits. `by exact run` lets the
operation's state be read off first: the one before it runs, so this one does too. -/
theorem keyboardAnswersAsStated : Obligations.KeyboardAnswersAsStated := by
  intro s valid run
  have notModel := (Config.valid_model_ne_inquiry valid).symm
  have later {x : BitVec 56} (h : s.timeUs.toNat + s.cfg.kbdDwell ≤ x.toNat) : s.timeUs.toNat ≤ x.toNat := by omega
  have elapsed {x : BitVec 56} (h : s.timeUs.toNat + s.cfg.kbdDwell ≤ x.toNat) :
      (s.cfg.kbdDwell : Int) ≤ (x.toNat : Int) - s.timeUs.toNat := by omega
  refine ⟨⟨_, exec_kbdCmd_of_running run _, fun x h => ?_⟩,
    fun empty => ⟨_, exec_kbdCmd_of_running run _, fun x h => ?_⟩,
    _, _, exec_kbdKey_of_running run _ _, exec_kbdCmd_of_running (by exact run) _, fun x h => ?_⟩
  · refine ⟨_, exec_tick_of_model (by exact run) (later h) rfl (elapsed h) rfl, rfl, fun y h' => ?_⟩
    exact ⟨_, exec_tick_of_waiting (by exact run) h' (.inl rfl), rfl, rfl⟩
  · exact ⟨_, exec_tick_of_no_event (by exact run) (later h) rfl (elapsed h) notModel rfl empty, rfl⟩
  · exact ⟨_, exec_tick_of_event (by exact run) (later h) rfl (elapsed h) notModel rfl rfl, rfl, rfl⟩

end Sys2Proof.Machine
end

section
/-! Proofs of the mouse statements (43_mouse.md). First the offsets of an array access and which writes a read does not
see; then what motion leaves in the three cells and elsewhere; then the statements. -/

namespace Sys2Proof.Machine

/-! ### Accesses apart from each other -/

/-- The RAM offsets of an access of a width at an offset, each reduced as R44 does. -/
def accessOffsets (c : Config) (i : Nat) (w : Width) : List Nat :=
  (List.range w.bytes).map fun k => (i + k) % c.ramSize

theorem mem_accessOffsets {c : Config} {i : Nat} {w : Width} {k : Nat} (hk : k < w.bytes) :
    (i + k) % c.ramSize ∈ accessOffsets c i w :=
  List.mem_map_of_mem (List.mem_range.mpr hk)

/-- `RamWr` leaves every byte outside its own offsets alone (R44). -/
theorem ramByte_ramWrite_of_not_mem {s : State} {i j : Nat} {w : Width} (v : BitVec w.bits)
    (outside : j ∉ accessOffsets s.cfg i w) : (ramWrite s i w v).ramByte j = s.ramByte j :=
  ramByte_ramWrite_other s w v fun _ hk same => outside (same ▸ mem_accessOffsets hk)

/-- `RamRd` does not see a `RamWr` that shares no offset with it (R44). -/
theorem ramRead_ramWrite_of_disjoint {s : State} {i j : Nat} {w u : Width} (v : BitVec u.bits)
    (apart : (accessOffsets s.cfg i w).Disjoint (accessOffsets s.cfg j u)) :
    ramRead (ramWrite s j u v) i w = ramRead s i w :=
  assemble_congr w fun _ hk => ramByte_ramWrite_of_not_mem v (apart (mem_accessOffsets hk))

/-- RAM holds exactly the value that `RamRd` gives (R44). -/
theorem holdsRam_iff {s : State} {i : Nat} {w : Width} {v : BitVec w.bits} : s.HoldsRam i w v ↔ ramRead s i w = v := by
  refine ⟨fun holds => ?_, fun read => read ▸ holdsRam_ramRead s i w⟩
  calc ramRead s i w
    _ = assemble w (lane w v) := assemble_congr w fun k hk => (holds k hk).symm
    _ = v := assemble_lane w v

/-- `RamRd` of one byte inside RAM is that byte. -/
theorem ramRead_byte {s : State} {i : Nat} (inside : i < s.cfg.ramSize) : ramRead s i .byte = s.ramByte i :=
  congrArg s.ramByte (Nat.mod_eq_of_lt inside)

theorem ramWrite_inv {s : State} (i : Nat) (w : Width) (v : BitVec w.bits) (h : s.Inv) : (ramWrite s i w v).Inv := by
  obtain ⟨valid, ram, rest⟩ := h
  have ramSize : 0 < s.cfg.ramSize := by have := (Config.valid_sizes valid).1; omega
  exact ⟨valid, wf_arrayWrite w v ramSize ram, rest⟩

/-! ### The three cells (R27) -/

/-- The five mouse bytes are the offsets of the two cells and the flag. -/
theorem mouseBytes_eq_accessOffsets (c : Config) : c.mouseBytes =
    accessOffsets c c.mouseXAddr .word ++ (accessOffsets c c.mouseYAddr .word ++ accessOffsets c c.mouseNewAddr .byte) :=
  rfl

/-- A valid configuration has the flag inside RAM and the five mouse bytes distinct (R8). -/
theorem Config.valid_mouse {c : Config} (valid : c.valid = true) :
    c.mouseNewAddr < c.ramSize ∧ c.mouseBytes.Nodup := by
  obtain ⟨-, -, -, -, -, -, -, -, -, -, -, -, -, x, y, flag, distinct, -⟩ :=
    (validConfigMeetsTheConstraints.1 c).mp valid
  exact ⟨flag, by rwa [mouseBytes_eq_of_lt x y flag]⟩

/-- No two of the cells share a byte. -/
theorem Config.valid_mouse_disjoint {c : Config} (valid : c.valid = true) :
    (accessOffsets c c.mouseXAddr .word).Disjoint (accessOffsets c c.mouseYAddr .word) ∧
    (accessOffsets c c.mouseXAddr .word).Disjoint (accessOffsets c c.mouseNewAddr .byte) ∧
    (accessOffsets c c.mouseYAddr .word).Disjoint (accessOffsets c c.mouseNewAddr .byte) := by
  obtain ⟨-, distinct⟩ := Config.valid_mouse valid
  rw [mouseBytes_eq_accessOffsets, List.nodup_append', List.nodup_append', List.disjoint_append_right] at distinct
  obtain ⟨-, ⟨-, -, yFlag⟩, xy, xFlag⟩ := distinct
  exact ⟨xy, xFlag, yFlag⟩

/-- A delta added to the horizontal cell is added modulo 2^16 (R112). -/
theorem toNat_cellPlus (cell delta : BitVec 16) :
    ((cellPlus cell delta).toNat : Int) = ((cell.toNat : Int) + delta.toInt) % 2 ^ 16 := by
  rw [cellPlus, BitVec.toNat_ofInt]
  omega

/-- A delta taken from the vertical cell is taken modulo 2^16 (R112). -/
theorem toNat_cellMinus (cell delta : BitVec 16) :
    ((cellMinus cell delta).toNat : Int) = ((cell.toNat : Int) - delta.toInt) % 2 ^ 16 := by
  rw [cellMinus, BitVec.toNat_ofInt]
  omega

/-! ### What motion leaves in RAM (R110)

Motion writes the horizontal cell, the vertical cell and the flag, in this order; what it wrote to a cell is still there
after the writes that follow, and what it reads of a cell is what was there before the writes so far. -/

section Motion

variable {s : State} (dx dy : BitVec 16)

/-- Motion leaves every byte but the five mouse bytes alone. -/
theorem ramByte_mouseMotion_other {j : Nat} (other : j ∉ s.cfg.mouseBytes) :
    (mouseMotion s dx dy).ramByte j = s.ramByte j := by
  rw [mouseBytes_eq_accessOffsets, List.mem_append, List.mem_append, not_or, not_or] at other
  obtain ⟨notX, notY, notFlag⟩ := other
  calc (mouseMotion s dx dy).ramByte j
    _ = (ramWrite (ramWrite s _ .word _) _ .word _).ramByte j := ramByte_ramWrite_of_not_mem _ notFlag
    _ = (ramWrite s _ .word _).ramByte j := ramByte_ramWrite_of_not_mem _ notY
    _ = s.ramByte j := ramByte_ramWrite_of_not_mem _ notX

variable (inv : s.Inv)
include inv

theorem ramRead_mouseMotion_horizontal : ramRead (mouseMotion s dx dy) s.cfg.mouseXAddr .word =
    cellPlus (ramRead s s.cfg.mouseXAddr .word) dx := by
  have ⟨valid, _⟩ := inv
  obtain ⟨xy, xFlag, -⟩ := Config.valid_mouse_disjoint valid
  calc ramRead (mouseMotion s dx dy) s.cfg.mouseXAddr .word
    _ = ramRead (ramWrite (ramWrite s _ .word _) _ .word _) s.cfg.mouseXAddr .word :=
      ramRead_ramWrite_of_disjoint _ xFlag
    _ = ramRead (ramWrite s _ .word _) s.cfg.mouseXAddr .word := ramRead_ramWrite_of_disjoint _ xy
    _ = cellPlus (ramRead s s.cfg.mouseXAddr .word) dx := ramRead_ramWrite_same inv _ .word _

theorem ramRead_mouseMotion_vertical : ramRead (mouseMotion s dx dy) s.cfg.mouseYAddr .word =
    cellMinus (ramRead s s.cfg.mouseYAddr .word) dy := by
  have ⟨valid, _⟩ := inv
  obtain ⟨-, -, yFlag⟩ := Config.valid_mouse_disjoint valid
  calc ramRead (mouseMotion s dx dy) s.cfg.mouseYAddr .word
    _ = ramRead (ramWrite (ramWrite s _ .word _) _ .word _) s.cfg.mouseYAddr .word :=
      ramRead_ramWrite_of_disjoint _ yFlag
    _ = cellMinus (ramRead s s.cfg.mouseYAddr .word) dy := ramRead_ramWrite_same (ramWrite_inv _ .word _ inv) _ .word _

theorem ramByte_mouseMotion_flag : (mouseMotion s dx dy).ramByte s.cfg.mouseNewAddr =
    s.cfg.mouseFlagNext.apply (s.ramByte s.cfg.mouseNewAddr) := by
  have ⟨valid, _⟩ := inv
  obtain ⟨inside, -⟩ := Config.valid_mouse valid
  obtain ⟨-, xFlag, yFlag⟩ := Config.valid_mouse_disjoint valid
  rw [← ramRead_byte (s := mouseMotion s dx dy) inside, ← ramRead_byte inside]
  calc ramRead (mouseMotion s dx dy) s.cfg.mouseNewAddr .byte
    _ = s.cfg.mouseFlagNext.apply (ramRead (ramWrite (ramWrite s _ .word _) _ .word _) s.cfg.mouseNewAddr .byte) :=
      ramRead_ramWrite_same (ramWrite_inv _ .word _ (ramWrite_inv _ .word _ inv)) _ .byte _
    _ = s.cfg.mouseFlagNext.apply (ramRead (ramWrite s _ .word _) s.cfg.mouseNewAddr .byte) :=
      congrArg _ (ramRead_ramWrite_of_disjoint _ yFlag.symm)
    _ = s.cfg.mouseFlagNext.apply (ramRead s s.cfg.mouseNewAddr .byte) :=
      congrArg _ (ramRead_ramWrite_of_disjoint _ xFlag.symm)

end Motion

/-! ### The mouse's operations from a running block -/

theorem exec_mouseMove (dx dy : BitVec 16) (button : Bool) (s : State) :
    exec (.mouseMove dx dy button) s = execMouseMove dx dy button s := rfl

theorem exec_btnSample (s : State) : exec .btnSample s = execBtnSample s := rfl

section Running

variable {s : State} (run : s.halted = false)
include run

theorem exec_mouseMove_of_still (button : Bool) :
    exec (.mouseMove 0 0 button) s = .next { s with mouseButton := button, out := [], ret := none } := by
  rw [exec_mouseMove, execMouseMove, running_of_running run]
  rfl

theorem exec_mouseMove_of_moves {dx dy : BitVec 16} (moves : dx ≠ 0 ∨ dy ≠ 0) (button : Bool) :
    exec (.mouseMove dx dy button) s =
      .next (mouseMotion { s with mouseButton := button, out := [], ret := none } dx dy) := by
  rw [exec_mouseMove, execMouseMove, running_of_running run]
  exact congrArg _ (if_pos moves)

theorem exec_btnSample_of_running :
    exec .btnSample s = .next { s with out := [], ret := some (.level s.mouseButton) } := by
  rw [exec_btnSample, execBtnSample, running_of_running run]
  rfl

end Running

/-! ### The statements -/

/-- Settles O50: the button level and the outputs aside, a move is the motion of the three cells; a value held by a cell
is what `RamRd` gives, so each cell's new value is the one motion leaves there. -/
theorem mouseMoveIntegratesMotion : Obligations.MouseMoveIntegratesMotion := by
  intro s dx dy b inv
  refine ⟨fun halted => exec_ne_next_of_halted halted _, fun run => ⟨?still, fun moves => ?moves⟩⟩
  case still =>
    rintro rfl rfl
    exact exec_mouseMove_of_still run b
  case moves =>
    have moved : State.Inv { s with mouseButton := b, out := [], ret := none } := inv
    refine ⟨_, exec_mouseMove_of_moves run moves b, mouseMotion_frame _ dx dy, fun X holds => ?_, fun Y holds => ?_,
      ramByte_mouseMotion_flag dx dy moved, fun j => ramByte_mouseMotion_other dx dy⟩
    · obtain rfl := holdsRam_iff.mp holds
      exact ⟨_, holdsRam_iff.mpr (ramRead_mouseMotion_horizontal dx dy moved), toNat_cellPlus _ dx⟩
    · obtain rfl := holdsRam_iff.mp holds
      exact ⟨_, holdsRam_iff.mpr (ramRead_mouseMotion_vertical dx dy moved), toNat_cellMinus _ dy⟩

/-- Settles O51: the effect of a running block's `BTN.SAMPLE`. -/
theorem btnSampleReturnsTheLevel : Obligations.BtnSampleReturnsTheLevel := by
  intro s
  exact ⟨exec_btnSample_of_running, fun halted => exec_ne_next_of_halted halted _⟩

end Sys2Proof.Machine
end

section
/-! Proofs of the disc hook and overlay statements (44_disc_hook_and_overlay.md). First the hook write in one equation;
then which data writes emit `disc_cmd`; then the overlay's own operation; then the statements. -/

namespace Sys2Proof.Machine

/-! ### The hook write (R116) -/

/-- The status `ENV.DISC` fixed is the one answered (R74). -/
theorem discCmd_status_of_fixed {s : State} {status : BitVec 32} (fixed : s.envDisc = some status) (v : Byte) :
    (discCmd s v).2 = status := by
  simp only [discCmd, fixed, Option.getD_some]

/-- The state the disc collaborator's run leaves: RAM and the drives hold any bytes (R56). -/
theorem discCmd_state (s : State) (v : Byte) : (discCmd s v).1 = { s with
    ram := Mem.ofCells s.cfg.ramSize (Config.freeRam s.draws)
    drives := havocDrives s.draws 0 s.drives
    envDisc := none
    draws := s.draws + 1
    out := s.out ++ [.discCmd v (discCmd s v).2] } := rfl

/-- All that a hook write does, by the status answered. -/
theorem discHook_eq (s : State) (v : Byte) : discHook s v = { s with
    ram := Mem.ofCells s.cfg.ramSize (Config.freeRam s.draws)
    drives := havocDrives s.draws 0 s.drives
    envDisc := none
    draws := s.draws + 1
    halted := s.halted || decide ((discCmd s v).2 ≠ 0)
    out := s.out ++ if (discCmd s v).2 = 0 then [.discCmd v (discCmd s v).2]
      else [.discCmd v (discCmd s v).2, .fatal (.discHookFailed v (discCmd s v).2)] } := by
  by_cases zero : (discCmd s v).2 = 0#32
  · simp [discHook, zero, discCmd_state]
  · simp [discHook, zero, discCmd_state, raiseFatal, emit]

/-- The only `disc_cmd` a hook write adds forwards the byte written. -/
theorem discCmd_mem_discHook_out {s : State} {v b : Byte} {x : BitVec 32}
    (h : .discCmd b x ∈ (discHook s v).out) : .discCmd b x ∈ s.out ∨ b = v := by
  rw [discHook_eq, List.mem_append] at h
  refine h.imp_right fun added => ?_
  obtain ⟨byte, -⟩ : b = v ∧ x = (discCmd s v).2 := by split at added <;> simpa using added
  exact byte

/-! ### The writes that reach the disc collaborator (R117) -/

/-- A `disc_cmd` that a data write adds comes from the byte write of the hook address. -/
theorem discCmd_mem_memWrite_out {s : State} {A : Nat} {w : Width} {v : BitVec w.bits} {b : Byte} {x : BitVec 32}
    (h : .discCmd b x ∈ (memWrite s A w v).out) :
    .discCmd b x ∈ s.out ∨ writeOp w A v = .wrB A b ∧ s.regionOf A = .hook := by
  simp only [memWrite] at h
  split at h
  · exact .inl h
  · left; split at h <;> simpa using h
  · left; cases w <;> simpa [byteOnlyWrite] using h
  · rename_i hook
    cases w
    · refine (discCmd_mem_discHook_out h).imp_right ?_
      rintro rfl
      exact ⟨rfl, hook⟩
    · left; simpa [byteOnlyWrite] using h
    · left; simpa [byteOnlyWrite] using h
  · left; split at h <;> simpa using h
  · left; simpa using h

/-- Of all operations only a data write emits `disc_cmd`, and its output list starts empty (R11). -/
theorem exec_discCmd_caller {b : Byte} {x : BitVec 32} : ∀ i s t, exec i s = .next t → .discCmd b x ∈ t.out →
    ∃ A, i = .wrB A b ∧ s.regionOf A = .hook := by
  apply exec_induction
  case write =>
    intro s w A v _ called
    obtain before | byteWrite := discCmd_mem_memWrite_out called
    · cases before
    · exact ⟨A, byteWrite⟩
  case motion | tick | raise | cmd | key =>
    intros
    rename_i called
    split at called <;> simp at called
  case read | fetch | ack | reset | lower | sample | drive | address =>
    intros
    rename_i called
    simp at called

/-! ### The overlay's operation from a running block -/

theorem exec_ovlDrive (v : Bool) (s : State) : exec (.ovlDrive v) s = execOvlDrive v s := rfl

theorem exec_ovlDrive_of_running {s : State} (run : s.halted = false) (v : Bool) :
    exec (.ovlDrive v) s = .next { s with overlay := v, out := [], ret := none } := by
  rw [exec_ovlDrive, execOvlDrive, running_of_running run]
  rfl

/-! ### The statements -/

/-- Settles O27: the write is the hook write from the state at the operation's start; RAM and the drives it leaves are
canonical and of the old shape. -/
theorem hookWriteForwardsAndTestsStatus : Obligations.HookWriteForwardsAndTestsStatus := by
  intro s A v run hook
  have write : exec (.wrB A v) s = .next (discHook (beginOp s) v) := by
    have write := exec_writeOp_of_running run .byte A v
    rwa [memWrite_of_hook (s := beginOp s) hook] at write
  refine ⟨(discCmd (beginOp s) v).2, _, _, fun x fixed => discCmd_status_of_fixed (s := beginOp s) fixed v,
    Mem.wf_ofCells _ (Config.freeRam s.draws), havocDrives_length s.draws 0 s.drives,
    fun k => (havocDrives_none s.draws 0 k s.drives).symm, ?_⟩
  rw [write, discHook_eq]
  simp [run, beginOp]

/-- Settles O28: every other operation's outputs hold no `disc_cmd`. -/
theorem onlyTheHookByteWriteCallsTheDisc : Obligations.OnlyTheHookByteWriteCallsTheDisc :=
  fun i s t _ _ ran => exec_discCmd_caller i s t ran

/-- Settles O52: the effect of a running block's `OVL.DRIVE`. -/
theorem ovlDriveSetsTheOverlay : Obligations.OvlDriveSetsTheOverlay := by
  intro s v
  exact ⟨fun run => exec_ovlDrive_of_running run v, fun halted => exec_ne_next_of_halted halted _⟩

end Sys2Proof.Machine
end

section
/-! Proofs of the statements on fatal conditions (60_exceptions.md). First what halted stops; then how each bus
operation of a running block ends; then, once for every operation, how it ends; then the statements. -/

namespace Sys2Proof.Machine

/-! ### Halted (R130) -/

/-- Every operation makes the halted test first. -/
theorem exec_of_halted {s : State} (halted : s.halted = true) (i : Instr) : exec i s = .fault .halted := by
  cases i <;> exact if_pos halted

/-! ### How an operation ends (R124) -/

/-- The operation is a bus operation at the address: a data read, a fetch or a data write. -/
def AccessesAt (i : Instr) (A : Nat) : Prop := (∃ w, i = readOp w A) ∨ i = .ifW A ∨ ∃ w v, i = writeOp w A v

/-- The operation is a bus operation whose address lies in a region where an access can raise a fatal condition: neither
RAM nor `UNMAPPED` (R125, R126). -/
def AccessMayHalt (i : Instr) (s : State) : Prop :=
  ∃ A, AccessesAt i A ∧ s.regionOf A ≠ .ram ∧ s.regionOf A ≠ .unmapped

theorem AccessMayHalt.of_region {i : Instr} {s : State} {A : Nat} {r : Region} (bus : AccessesAt i A)
    (region : s.regionOf A = r) (notRam : r ≠ .ram) (notUnmapped : r ≠ .unmapped) : AccessMayHalt i s :=
  ⟨A, bus, region ▸ notRam, region ▸ notUnmapped⟩

/-- The two ways an operation can end: it completes with no fatal event, or it raises a fatal condition, with that event
the last and nothing returned. -/
inductive Ending (i : Instr) (s t : State) : Prop where
  | completes (run : t.halted = false) (noFatal : ∀ f, .fatal f ∉ t.out)
  | raises (access : AccessMayHalt i s) (halted : t.halted = true) (ret : t.ret = none) (f : FatalInfo)
      (last : t.out.getLast? = some (.fatal f))

/-- The fatal entry, with nothing returned before it, ends the operation. -/
theorem ending_raiseFatal {i : Instr} {s u : State} (access : AccessMayHalt i s) (ret : u.ret = none) (f : FatalInfo) :
    Ending i s (raiseFatal u f) :=
  .raises access rfl ret f (by simp)

/-- A call of the I/O chip raises nothing (R41). -/
@[simp] theorem iochipRead_halted (s : State) (a : Nat) : (iochipRead s a).1.halted = s.halted := by
  rw [iochipRead_frame]

@[simp] theorem iochipWrite_halted (s : State) (a : Nat) (v : Byte) : (iochipWrite s a v).halted = s.halted := by
  rw [iochipWrite_frame]

/-- A hook write raises `F2` exactly when the status is not zero (R126). -/
theorem ending_discHook {i : Instr} {s u : State} (access : AccessMayHalt i s) (run : u.halted = false)
    (ret : u.ret = none) (noFatal : ∀ f, .fatal f ∉ u.out) (v : Byte) : Ending i s (discHook u v) := by
  rw [discHook_eq]
  by_cases zero : (discCmd u v).2 = 0#32
  · exact .completes (by simp [run, zero]) (by simp [noFatal, zero])
  · exact .raises access (by simp [zero]) ret (.discHookFailed v (discCmd u v).2) (by simp [zero])

/-! ### The bus operations of a running block, by region -/

section Bus

variable {s : State} (run : s.halted = false)
include run

/-- A read completes, or raises `F1` where the region lacks the width (R47). -/
theorem ending_read (w : Width) (A : Nat) : Ending (readOp w A) s (finishRead w (memRead (beginOp s) A w)) := by
  have bus : AccessesAt (readOp w A) A := .inl ⟨w, rfl⟩
  cases region : s.regionOf A with
  | ram =>
    rw [memRead_of_ram (s := beginOp s) region]
    exact .completes run (by simp)
  | rom =>
    rw [memRead_of_rom (s := beginOp s) region]
    exact .completes run (by simp)
  | iochip =>
    rw [memRead_of_iochip (s := beginOp s) region]
    by_cases wide : w = .byte
    · subst wide
      exact .completes (by simpa [byteOnlyRead] using run) (by simp [byteOnlyRead])
    · rw [byteOnlyRead_of_not_byte wide]
      exact ending_raiseFatal (.of_region bus region nofun nofun) rfl _
  | hook =>
    rw [memRead_of_hook (s := beginOp s) region]
    by_cases wide : w = .byte
    · subst wide
      exact .completes run (by simp [byteOnlyRead])
    · rw [byteOnlyRead_of_not_byte wide]
      exact ending_raiseFatal (.of_region bus region nofun nofun) rfl _
  | extra k =>
    cases has : extraHas s.cfg k w with
    | true =>
      rw [memRead_of_extra (s := beginOp s) region has]
      exact .completes run (by simp)
    | false =>
      rw [memRead_of_extra_lacking (s := beginOp s) region has]
      exact ending_raiseFatal (.of_region bus region nofun nofun) rfl _
  | unmapped =>
    rw [memRead_of_unmapped (s := beginOp s) region]
    exact .completes run (by simp)

/-- A fetch completes, or raises `F1` where the region has no word width; under the overlay a low address reads ROM (R49). -/
theorem ending_fetch (A : Nat) : Ending (.ifW A) s (finishRead .word (fetchWord (beginOp s) A)) := by
  by_cases plain : s.overlay = false ∨ s.cfg.ovlSize ≤ busAddr s.cfg A
  case neg =>
    simp only [not_or, Bool.not_eq_false, Nat.not_le] at plain
    obtain ⟨overlay, low⟩ := plain
    rw [fetchWord_of_alias (s := beginOp s) overlay low]
    exact .completes run (by simp)
  have bus : AccessesAt (.ifW A) A := .inr (.inl rfl)
  cases region : s.regionOf A with
  | ram =>
    rw [fetchWord_of_ram (s := beginOp s) plain region]
    exact .completes run (by simp)
  | rom =>
    rw [fetchWord_of_rom (s := beginOp s) plain region]
    exact .completes run (by simp)
  | iochip =>
    rw [fetchWord_of_no_word (s := beginOp s) plain (.inl region)]
    exact ending_raiseFatal (.of_region bus region nofun nofun) rfl _
  | hook =>
    rw [fetchWord_of_no_word (s := beginOp s) plain (.inr (.inl region))]
    exact ending_raiseFatal (.of_region bus region nofun nofun) rfl _
  | extra k =>
    cases has : extraHas s.cfg k .word with
    | true =>
      rw [fetchWord_of_extra (s := beginOp s) plain region has]
      exact .completes run (by simp)
    | false =>
      rw [fetchWord_of_no_word (s := beginOp s) plain (.inr (.inr ⟨k, region, has⟩))]
      exact ending_raiseFatal (.of_region bus region nofun nofun) rfl _
  | unmapped =>
    rw [fetchWord_of_unmapped (s := beginOp s) plain region]
    exact .completes run (by simp)

/-- A write completes, or raises `F1` where the region lacks the width or ROM refuses it, or ends as the hook write
does (R48, R116). -/
theorem ending_write (w : Width) (A : Nat) (v : BitVec w.bits) :
    Ending (writeOp w A v) s (memWrite (beginOp s) A w v) := by
  have bus : AccessesAt (writeOp w A v) A := .inr (.inr ⟨w, v, rfl⟩)
  cases region : s.regionOf A with
  | ram =>
    rw [memWrite_of_ram (s := beginOp s) region]
    exact .completes run (by simp)
  | rom =>
    cases policy : s.cfg.romWritePolicy with
    | drop =>
      rw [memWrite_of_rom_drop (s := beginOp s) region policy]
      exact .completes run (by simp)
    | fatal =>
      rw [memWrite_of_rom_fatal (s := beginOp s) region policy]
      exact ending_raiseFatal (.of_region bus region nofun nofun) rfl _
  | iochip =>
    rw [memWrite_of_iochip (s := beginOp s) region]
    by_cases wide : w = .byte
    · subst wide
      exact .completes (by simpa [byteOnlyWrite] using run) (by simp [byteOnlyWrite])
    · rw [byteOnlyWrite_of_not_byte wide]
      exact ending_raiseFatal (.of_region bus region nofun nofun) rfl _
  | hook =>
    rw [memWrite_of_hook (s := beginOp s) region]
    by_cases wide : w = .byte
    · subst wide
      exact ending_discHook (u := beginOp s) (.of_region bus region nofun nofun) run rfl (by simp) v
    · rw [byteOnlyWrite_of_not_byte wide]
      exact ending_raiseFatal (.of_region bus region nofun nofun) rfl _
  | extra k =>
    cases has : extraHas s.cfg k w with
    | true =>
      rw [memWrite_of_extra (s := beginOp s) region has]
      exact .completes run (by simp)
    | false =>
      rw [memWrite_of_extra_lacking (s := beginOp s) region has]
      exact ending_raiseFatal (.of_region bus region nofun nofun) rfl _
  | unmapped =>
    rw [memWrite_of_unmapped (s := beginOp s) region]
    exact .completes run (by simp)

end Bus

/-- Every operation that answers a next state ends in one of the two ways; only the bus operations reach the fatal
entry (R123). -/
theorem exec_ending : ∀ i s t, exec i s = .next t → Ending i s t := by
  apply exec_induction
  case read => exact fun s w A run => ending_read run w A
  case write => exact fun s w A v run => ending_write run w A v
  case fetch => exact fun s A run => ending_fetch run A
  case motion | tick | raise | cmd | key =>
    intros
    split <;> exact .completes (by simpa) (by simp)
  case ack | reset | lower | sample | drive | address =>
    intros
    exact .completes (by simpa) (by simp)

/-! ### The statements -/

/-- Settles O36: no operation passes the halted test, so a step that answers a next state ran none. -/
theorem haltedIsTerminal : Obligations.HaltedIsTerminal := by
  intro s halted
  refine ⟨exec_of_halted halted, fun t h => ?_⟩
  obtain ⟨-, quiet | ⟨i, u, issue, ran⟩⟩ := step_next h
  · exact nextIssue_quiet quiet
  · have stillHalted : u.halted = true := by rw [nextIssue_frame issue]; exact halted
    exact absurd ran (exec_ne_next_of_halted stillHalted i t)

/-- Settles O37: an operation that leaves the block halted is one that raised. -/
theorem onlyBusOperationsHalt : Obligations.OnlyBusOperationsHalt := by
  intro i s t h halted
  cases exec_ending i s t h with
  | completes run => exact absurd (run.symm.trans halted) Bool.false_ne_true
  | raises access => exact access

/-- Settles O38: each of the two endings has both sides of the equivalence, or neither. -/
theorem fatalEndsTheOperation : Obligations.FatalEndsTheOperation := by
  intro i s t h
  cases exec_ending i s t h with
  | completes run noFatal => simp [run, noFatal]
  | raises _ halted ret f last =>
    exact ⟨iff_of_true halted ⟨f, List.mem_of_getLast? last⟩, fun _ => ⟨ret, f, last⟩⟩

end Sys2Proof.Machine
end

section
/-! Proofs of the reset statements (70_reset_and_hazards.md). First what power-on builds from a configuration and
buffers that fit; then `RESET` from a running block; then which operation emits a response; then the statements. -/

namespace Sys2Proof.Machine

/-! ### Power-on (R143) -/

section PowerOn

variable {c : Config} {ram rom : Mem} {ds : List (Option Drive)} (valid : c.valid = true)
  (ramFits : Mem.wf c.ramSize ram = true) (romFits : Mem.wf c.romSize rom = true) (drives : drivesFit c ds = true)
include valid ramFits romFits drives

theorem powerOn_of_fits : powerOn c ram rom ds = .next (State.init c ram rom ds) := by
  simp only [powerOn, valid, ramFits, romFits, drives, Bool.and_self, if_true]

/-- The start state meets the invariant: level 0 is the highest of the empty mask, and the latch is empty. -/
theorem init_inv : (State.init c ram rom ds).Inv :=
  ⟨valid, ramFits, romFits, (by decide : (0 : BitVec 3) = highestPending 0), nofun, drives⟩

end PowerOn

/-! ### The CPU port's `RESET` from a running block (R145) -/

theorem exec_reset (s : State) : exec .reset s = execReset s := rfl

theorem exec_reset_of_running {s : State} (run : s.halted = false) :
    exec .reset s = .next { s with overlay := true, out := [], ret := none } := by
  rw [exec_reset, execReset, running_of_running run]
  rfl

/-! ### The operation that emits a response (R152) -/

/-- Of all operations only a `TICK` emits `sr_rx`: the others' outputs hold events of other kinds. -/
theorem exec_srRx_tick {b : Byte} : ∀ i s t, exec i s = .next t → .srRx b ∈ t.out → ∃ x, i = .tick x := by
  apply exec_induction
  case tick => exact fun _ x _ _ _ => ⟨x, rfl⟩
  case motion | raise | cmd | key =>
    intros
    rename_i response
    split at response <;> simp at response
  case read | write | fetch | ack | reset | lower | sample | drive | address =>
    intros
    rename_i response
    simp at response

/-- A `TICK` that emits anything finds a latched command with its dwell over, and clears the latch: a tick that waits
emits nothing (R101, R103). -/
theorem exec_tick_emits {s t : State} {x : BitVec 56} {e : Event} (h : exec (.tick x) s = .next t)
    (emitted : e ∈ t.out) :
    s.kbdCmdValid = true ∧ s.kbdCmdTime.toNat + s.cfg.kbdDwell ≤ x.toNat ∧ t.kbdCmdValid = false := by
  have run := running_of_exec_next _ s t h
  obtain ⟨later, -⟩ := exec_tick_time h
  by_cases waits : s.kbdCmdValid = false ∨ (x.toNat : Int) - s.kbdCmdTime.toNat < s.cfg.kbdDwell
  · cases (exec_tick_of_waiting run later waits).symm.trans h
    cases emitted
  · obtain ⟨latched, elapsed⟩ := not_or.mp waits
    rw [Bool.not_eq_false] at latched
    rw [not_lt] at elapsed
    cases (exec_tick_of_elapsed run later latched elapsed rfl).symm.trans h
    exact ⟨latched, by omega, rfl⟩

/-! ### The statements -/

/-- Settles O49: only a `TICK` answers, and one that answers is not one that waits. -/
theorem noResponseBeforeTheDwell : Obligations.NoResponseBeforeTheDwell := by
  intro i s t b h response
  obtain ⟨x, rfl⟩ := exec_srRx_tick i s t h response
  exact ⟨x, rfl, exec_tick_emits h response⟩

/-- Settles O1: everything fits, so power-on answers the start state, whose fields are as written. -/
theorem initGivesTheStartState : Obligations.InitGivesTheStartState := by
  intro c ram rom ds valid ramFits romFits drives
  exact ⟨_, powerOn_of_fits valid ramFits romFits drives, by simp only [State.init, and_self]⟩

/-- Settles O2: the reset state is the start state of REF with empty buffers and one absent slot for each drive. -/
theorem resetStateMeetsInvariant : Obligations.ResetStateMeetsInvariant :=
  ⟨init_inv Config.ref_valid rfl rfl (by decide), rfl, rfl, rfl⟩

/-- Settles O53: the effect of a running block's `RESET`. -/
theorem resetOperationSetsOnlyTheOverlay : Obligations.ResetOperationSetsOnlyTheOverlay := by
  intro s
  exact ⟨exec_reset_of_running, fun halted => exec_ne_next_of_halted halted _⟩

end Sys2Proof.Machine
end
